-- ==== Sys2Proof/Word.lean ====
section
/-! DEFINITION. The word of the machine: the byte (00_scope.md R7).

Registers, memory cells, operands and the flags register are bytes: unsigned, 8 bits, bit 7 the most
significant. The program counter is not a word: it is an unsigned integer that never wraps
(10_state.md R24), so it is a `Nat`. -/

namespace Sys2Proof

/-- A byte: an unsigned integer 0 to 255 whose arithmetic wraps modulo 256 (00_scope.md R7, 10_state.md R22). -/
abbrev Byte := BitVec 8

end Sys2Proof
end

