-- ==== Sys2Proof/Syntax.lean ====
section
/-! DEFINITION. The instructions as syntax: the 19 of 30_encoding.md R66, in the order of spec/opcode_table.json.

`Opcode` is an instruction's identity without its operands (what the dispatch table is keyed by);
`Instr` is an instruction with its operand bytes. A register operand is a WHOLE byte (30_encoding.md R63):
the values 8 to 255 are encodable and raise OutOfBoundsReg when the instruction executes. -/

namespace Sys2Proof

/-- The identities of the 19 instructions (30_encoding.md R66). -/
inductive Opcode where
  | ldi | prn | hlt
  | add | mul | and | or | xor | not | shl | shr
  | cmp
  | push | pop
  | call | ret | jmp | jeq | jne
  deriving DecidableEq, Repr

/-- The closed set of opcodes, as a list (30_encoding.md R66: 19 instructions). -/
def Opcode.all : List Opcode :=
  [.ldi, .prn, .hlt, .add, .mul, .and, .or, .xor, .not, .shl, .shr, .cmp,
   .push, .pop, .call, .ret, .jmp, .jeq, .jne]

/-- One constructor per row of spec/opcode_table.json. `a`, `b` are register operand bytes, `imm` is an
immediate byte; formats Z, R, RR and RI of 30_encoding.md R64. -/
inductive Instr where
  /-- `LDI Ra,imm` (R140), format RI. -/
  | ldi (a imm : Byte)
  /-- `PRN Ra` (R141), format R. -/
  | prn (a : Byte)
  /-- `HLT` (R135), format Z. -/
  | hlt
  /-- `ADD Ra,Rb` (R101), format RR. -/
  | add (a b : Byte)
  /-- `MUL Ra,Rb` (R102), format RR. -/
  | mul (a b : Byte)
  /-- `AND Ra,Rb` (R103), format RR. -/
  | and (a b : Byte)
  /-- `OR Ra,Rb` (R104), format RR. -/
  | or (a b : Byte)
  /-- `XOR Ra,Rb` (R105), format RR. -/
  | xor (a b : Byte)
  /-- `NOT Ra` (R106), format R. -/
  | not (a : Byte)
  /-- `SHL Ra,Rb` (R107), format RR. -/
  | shl (a b : Byte)
  /-- `SHR Ra,Rb` (R108), format RR. -/
  | shr (a b : Byte)
  /-- `CMP Ra,Rb` (R110), format RR. -/
  | cmp (a b : Byte)
  /-- `PUSH Ra` (R120), format R. -/
  | push (a : Byte)
  /-- `POP Ra` (R121), format R. -/
  | pop (a : Byte)
  /-- `CALL Ra` (R130), format R. -/
  | call (a : Byte)
  /-- `RET` (R131), format Z. -/
  | ret
  /-- `JMP Ra` (R132), format R. -/
  | jmp (a : Byte)
  /-- `JEQ Ra` (R133), format R. -/
  | jeq (a : Byte)
  /-- `JNE Ra` (R134), format R. -/
  | jne (a : Byte)
  deriving DecidableEq, Repr

end Sys2Proof
end

