-- ==== Sys2Proof/Config.lean ====
section
/-! DEFINITION. The configuration: what is fixed for one machine and is not state (00_scope.md R6, 10_state.md R20).

The two parameters the spec leaves OPEN are fields of `Config`. Their default values are in
Sys2Proof/Decode.lean (`defaultConfig`). The machine has no free value: 93_implementation_defined.md, part 1. -/

namespace Sys2Proof

/-- UNKNOWN_OPCODE_POLICY (00_scope.md R6, 30_encoding.md R69): what a cycle does with an opcode byte that is
not in the map. -/
inductive UnknownOpcodePolicy where
  /-- The cycle raises UnknownOpcode (40_cycle_dispatch.md R84). -/
  | fatal
  /-- The cycle only advances the program counter, or does nothing (40_cycle_dispatch.md R85). -/
  | legacyNop
  deriving DecidableEq, Repr

/-- The configuration of one machine: OPCODE_MAP and UNKNOWN_OPCODE_POLICY (00_scope.md R6). -/
structure Config where
  /-- OPCODE_MAP: the opcode byte of each instruction (30_encoding.md R66). -/
  opcodeMap : Opcode → Byte
  /-- UNKNOWN_OPCODE_POLICY (30_encoding.md R69). -/
  unknownOpcode : UnknownOpcodePolicy

end Sys2Proof
end

