-- ==== Sys2Proof/WellFormed.lean ====
section
/-! DEFINITION. Well-formed instructions: every declared register operand names a register.

30_encoding.md R72 writes a register operand as R and its index 0 to 7; R63 lets the byte hold any value.
An instruction that is not well-formed decodes and executes: it raises OutOfBoundsReg (60_exceptions.md R153). -/

namespace Sys2Proof

/-- An operand byte names one of the 8 registers (10_state.md R21). -/
def namesRegister (a : Byte) : Bool := decide (a.toNat ≤ 7)

/-- Every register operand the instruction's format declares is in 0 to 7 (30_encoding.md R64, R63); the
immediate of LDI is not restricted. -/
def Instr.wellFormed : Instr → Bool
  | .ldi a _ => namesRegister a
  | .prn a => namesRegister a
  | .hlt => true
  | .add a b => namesRegister a && namesRegister b
  | .mul a b => namesRegister a && namesRegister b
  | .and a b => namesRegister a && namesRegister b
  | .or a b => namesRegister a && namesRegister b
  | .xor a b => namesRegister a && namesRegister b
  | .not a => namesRegister a
  | .shl a b => namesRegister a && namesRegister b
  | .shr a b => namesRegister a && namesRegister b
  | .cmp a b => namesRegister a && namesRegister b
  | .push a => namesRegister a
  | .pop a => namesRegister a
  | .call a => namesRegister a
  | .ret => true
  | .jmp a => namesRegister a
  | .jeq a => namesRegister a
  | .jne a => namesRegister a

end Sys2Proof
end

