-- ==== Sys2Proof/Decode.lean ====
section
/-! DEFINITION. Decoding and encoding (30_encoding.md), the opcode map, and the fields of the opcode byte.

The machine always fetches a window of three bytes (40_cycle_dispatch.md R81), selects the instruction by all
8 bits of the first (R65) and ignores the operand bytes its format does not declare (R71). -/

namespace Sys2Proof

/-- `NN`, bits 7:6 of the opcode byte: the operand count (30_encoding.md R61). -/
def operandCountField (ir : Byte) : Nat := (ir.extractLsb' 6 2).toNat

/-- `A`, bit 5 of the opcode byte: the ALU flag, informational only (30_encoding.md R61, R68). -/
def aluFlagBit (ir : Byte) : Bool := ir.getLsbD 5

/-- `C`, bit 4 of the opcode byte: sets_pc (30_encoding.md R61). -/
def setsPcBit (ir : Byte) : Bool := ir.getLsbD 4

/-- `IIII`, bits 3:0 of the opcode byte: the operation identifier (30_encoding.md R61). -/
def identifierField (ir : Byte) : Nat := (ir.extractLsb' 0 4).toNat

/-- The length of an instruction from its opcode byte alone: `1 + ir[7:6]` (30_encoding.md R62). -/
def lengthOf (ir : Byte) : Nat := 1 + operandCountField ir

/-- How many operand bytes each instruction has (30_encoding.md R64, R67 column NN).
PRESUMED for NOT (log entry 14): its one operand byte comes from the general-knowledge opcode 0x69. -/
def Opcode.operandCount : Opcode → Nat
  | .hlt | .ret => 0
  | .prn | .not | .push | .pop | .call | .jmp | .jeq | .jne => 1
  | .ldi | .add | .mul | .and | .or | .xor | .shl | .shr | .cmp => 2

/-- Whether the handler, not the cycle, writes the program counter (30_encoding.md R67 column C).
PRESUMED for HLT (log entry 14): its clear bit comes from the general-knowledge opcode 0x01. -/
def Opcode.setsPc : Opcode → Bool
  | .call | .ret | .jmp | .jeq | .jne => true
  | .ldi | .prn | .hlt | .add | .mul | .and | .or | .xor | .not | .shl | .shr | .cmp | .push | .pop => false

/-- The default OPCODE_MAP: the 19 bytes of 30_encoding.md R66.
PRESUMED (log entry 1): the spec marks every value as general knowledge, not in the source. -/
def ls8OpcodeByte : Opcode → Byte
  | .ldi => 0b10000010#8
  | .prn => 0b01000111#8
  | .hlt => 0b00000001#8
  | .add => 0b10100000#8
  | .mul => 0b10100010#8
  | .and => 0b10101000#8
  | .or => 0b10101010#8
  | .xor => 0b10101011#8
  | .not => 0b01101001#8
  | .shl => 0b10101100#8
  | .shr => 0b10101101#8
  | .cmp => 0b10100111#8
  | .push => 0b01000101#8
  | .pop => 0b01000110#8
  | .call => 0b01010000#8
  | .ret => 0b00010001#8
  | .jmp => 0b01010100#8
  | .jeq => 0b01010101#8
  | .jne => 0b01010110#8

/-- The default configuration (00_scope.md R6): the published opcode bytes and the policy `fatal`.
DESIGN CHOICE (log entry 2): the spec's recommended default of an open parameter. -/
def defaultConfig : Config where
  opcodeMap := ls8OpcodeByte
  unknownOpcode := .fatal

/-- What 30_encoding.md R67 asks of any OPCODE_MAP: no two instructions share a byte, and each keeps the `NN`
and `C` bits of its row. -/
def Config.wellFormed (c : Config) : Bool :=
  decide (Opcode.all.map c.opcodeMap).Nodup &&
    Opcode.all.all fun op =>
      decide (operandCountField (c.opcodeMap op) = op.operandCount) &&
        decide (setsPcBit (c.opcodeMap op) = op.setsPc)

/-- Look the whole opcode byte up in the dispatch table (30_encoding.md R65, 40_cycle_dispatch.md R83). -/
def opcodeOf (c : Config) (ir : Byte) : Option Opcode :=
  Opcode.all.find? fun op => c.opcodeMap op == ir

/-- Give the two prefetched operand bytes to the instruction; the excess is ignored (30_encoding.md R71,
40_cycle_dispatch.md R83). -/
def instrOf (op : Opcode) (opa opb : Byte) : Instr :=
  match op with
  | .ldi => .ldi opa opb
  | .prn => .prn opa
  | .hlt => .hlt
  | .add => .add opa opb
  | .mul => .mul opa opb
  | .and => .and opa opb
  | .or => .or opa opb
  | .xor => .xor opa opb
  | .not => .not opa
  | .shl => .shl opa opb
  | .shr => .shr opa opb
  | .cmp => .cmp opa opb
  | .push => .push opa
  | .pop => .pop opa
  | .call => .call opa
  | .ret => .ret
  | .jmp => .jmp opa
  | .jeq => .jeq opa
  | .jne => .jne opa

/-- The three bytes a cycle fetches (40_cycle_dispatch.md R81); they live for one cycle (10_state.md R33). -/
structure Window where
  ir : Byte
  opa : Byte
  opb : Byte
  deriving DecidableEq, Repr

/-- Why bytes are no instruction. -/
inductive DecodeError where
  /-- The first byte is not in the opcode map (30_encoding.md R69). -/
  | unknownOpcode (ir : Byte)
  /-- Fewer than the three bytes that every cycle fetches (40_cycle_dispatch.md R81). -/
  | shortWindow
  deriving DecidableEq, Repr

/-- Decode a fetched window (30_encoding.md R65, R71). -/
def decodeWindow (c : Config) (w : Window) : Except DecodeError Instr :=
  match opcodeOf c w.ir with
  | some op => .ok (instrOf op w.opa w.opb)
  | none => .error (.unknownOpcode w.ir)

/-- Decode the first three bytes of a list, the lowest address first (20_memory.md R42). Total; a list shorter
than the fetch window is rejected by name. -/
def decode (c : Config) : List Byte → Except DecodeError Instr
  | ir :: opa :: opb :: _ => decodeWindow c ⟨ir, opa, opb⟩
  | _ => .error .shortWindow

/-- The identity of an instruction. -/
def Instr.opcode : Instr → Opcode
  | .ldi _ _ => .ldi
  | .prn _ => .prn
  | .hlt => .hlt
  | .add _ _ => .add
  | .mul _ _ => .mul
  | .and _ _ => .and
  | .or _ _ => .or
  | .xor _ _ => .xor
  | .not _ => .not
  | .shl _ _ => .shl
  | .shr _ _ => .shr
  | .cmp _ _ => .cmp
  | .push _ => .push
  | .pop _ => .pop
  | .call _ => .call
  | .ret => .ret
  | .jmp _ => .jmp
  | .jeq _ => .jeq
  | .jne _ => .jne

/-- The operand bytes in memory order (30_encoding.md R64, R72: destination first). -/
def Instr.operands : Instr → List Byte
  | .ldi a imm => [a, imm]
  | .prn a => [a]
  | .hlt => []
  | .add a b => [a, b]
  | .mul a b => [a, b]
  | .and a b => [a, b]
  | .or a b => [a, b]
  | .xor a b => [a, b]
  | .not a => [a]
  | .shl a b => [a, b]
  | .shr a b => [a, b]
  | .cmp a b => [a, b]
  | .push a => [a]
  | .pop a => [a]
  | .call a => [a]
  | .ret => []
  | .jmp a => [a]
  | .jeq a => [a]
  | .jne a => [a]

/-- The register operands an instruction's format declares, in the order they are checked (30_encoding.md R64,
40_cycle_dispatch.md R86): operand `a` first, then `b` for format RR; the immediate of LDI is none. -/
def Instr.registerOperands : Instr → List Byte
  | .ldi a _ => [a]
  | i => i.operands

/-- The bytes of an instruction: the opcode byte at the lowest address, then its operand bytes
(30_encoding.md R60, R64). -/
def encode (c : Config) (i : Instr) : List Byte := c.opcodeMap i.opcode :: i.operands

/-- The window a table word of `nbits` bits stands for: byte k is bits 8k+7 to 8k, bits above `nbits` are 0. -/
def windowOfWord (nbits w : Nat) : Window :=
  let v := w % 2 ^ nbits
  ⟨BitVec.ofNat 8 v, BitVec.ofNat 8 (v / 2 ^ 8), BitVec.ofNat 8 (v / 2 ^ 16)⟩

/-- The instruction the decoder reads from a table word, under the default configuration. -/
def decodeTableWord (nbits w : Nat) : Option Instr :=
  (decodeWindow defaultConfig (windowOfWord nbits w)).toOption

end Sys2Proof
end

