-- ==== Sys2Proof/Machine/State.lean ====
section
/-! DEFINITION. The state of the machine (10_state.md R20: the tuple `(x[0..7], pc, fl, run, mem[0..255], out, fault)`
and nothing else), its reset value (R34), and the reasons a step or a load can stop. Plain data. -/

namespace Sys2Proof.Machine

/-- The run state (10_state.md R28). -/
inductive RunState where
  /-- The next cycle will execute. -/
  | running
  /-- An HLT has executed; no further cycle executes. -/
  | halted
  /-- A fatal error was raised; no further cycle executes. -/
  | faulted
  deriving DecidableEq, Repr

/-- The fault causes (60_exceptions.md R151). -/
inductive FaultCause where
  /-- Code 0: no fault. -/
  | noFault
  /-- Code 1: a memory address outside 0 to 255 was formed (R152). -/
  | outOfBoundsMem
  /-- Code 2: a register operand byte above 7 (R153). -/
  | outOfBoundsReg
  /-- Code 3: an opcode byte outside the map, under the policy `fatal` (R154). -/
  | unknownOpcode
  /-- Code 4: reserved, never written (R155, 40_cycle_dispatch.md R89). -/
  | unsupportedOperation
  deriving DecidableEq, Repr

/-- The fault record `(cause, index, ipc)` (10_state.md R32). The index is an integer: -1 can be recorded. -/
structure FaultRecord where
  cause : FaultCause
  index : Int
  ipc : Nat
  deriving DecidableEq, Repr

/-- What `raise` is given (00_scope.md R10): the cause and its information. -/
structure Raised where
  cause : FaultCause
  index : Int
  deriving DecidableEq, Repr

/-- Memory: the listed cells, in the canonical form `Memory.wf` of Machine/Ops.lean; an unlisted address reads
as the reset value. -/
abbrev Memory := List Host.Cell

/-- The architectural state (10_state.md R20). -/
structure State where
  /-- The eight general registers; `x[7]` is the stack pointer (R21, R23). -/
  x : Vector Byte 8
  /-- The program counter: an unsigned integer that does not wrap (R24). -/
  pc : Nat
  /-- The flags register: bit 0 Equal, bit 1 Greater, bit 2 Less (R26). -/
  fl : Byte
  /-- The run state (R28). -/
  run : RunState
  /-- The 256 memory cells (R30). -/
  mem : Memory
  /-- The output log, oldest first (R31). -/
  out : List Byte
  /-- The fault record (R32). -/
  fault : FaultRecord
  deriving DecidableEq, Repr

/-- The state after reset, before the loader has written anything (10_state.md R34, 70_reset_and_hazards.md R170).
`x[7]`, `run` and `mem` have the source's values; `x[0]` to `x[6]`, `pc`, `fl` and `fault` have the values the spec
decides where the source is silent (DESIGN CHOICE, log entry 5). -/
def State.reset : State where
  x := #v[0x00#8, 0x00#8, 0x00#8, 0x00#8, 0x00#8, 0x00#8, 0x00#8, 0xF4#8]
  pc := 0
  fl := 0x00#8
  run := .running
  mem := []
  out := []
  fault := ⟨.noFault, 0, 0⟩

/-- The reasons for which something stops with a fault that is NOT a state of the core. The core's own fatal errors
are next states with `run = faulted` (60_exceptions.md R158; log entry 4), so no step and no instruction answers one. -/
inductive Fault where
  /-- LoadError (60_exceptions.md R156): raised by the loader (`loadProgram` of Machine/Boundary.lean) for a program of
  more than 256 bytes, before the core starts. Safe: the spec says the core is then never started. -/
  | loadError
  deriving DecidableEq, Repr

/-- The reasons for which something is refused. -/
inductive Refusal where
  /-- An instruction with no meaning yet, raised by an arm of exec. Safe. No arm raises it: all 19 have their meaning. -/
  | notModelled (mnemonic : String)
  /-- A move the host does not have (70_reset_and_hazards.md R173, R174): raised by `hostMove` of Machine/Boundary.lean
  for a load after start, a load outside 0 to 255, or a second start. Safe. No instruction raises it. -/
  | noSuchHostMove
  deriving DecidableEq, Repr

/-- The outcome of a step or of an instruction. -/
abbrev Result := Host.Outcome State Fault Refusal

/-- A computation inside one cycle: a value, or a `raise` (00_scope.md R10). -/
abbrev Checked (α : Type) := Except Raised α

end Sys2Proof.Machine
end

