-- ==== Sys2Proof/Machine/Ops.lean ====
section
/-! DEFINITION. The named operations over memory, registers and the program counter, and `raise`: the fault entry.

A handler is a function of the state that may raise; its writes are lost when it does, because the state the cycle
began in is what `raise` starts from (00_scope.md R10). -/

namespace Sys2Proof.Machine

/-! ### Memory cells (10_state.md R30, 20_memory.md R40) -/

/-- What an unlisted address reads as: the reset contents, "zero-initialized" (10_state.md R30, R34). -/
def unlistedByte : Byte := 0x00#8

/-- The cell at an address. -/
def readByte : Memory → Nat → Byte
  | [], _ => unlistedByte
  | (b, v) :: rest, a => if b = a then v else readByte rest a

/-- List a cell at its place in the rising order of addresses, replacing the one already listed there. -/
def insertCell : Memory → Nat → Byte → Memory
  | [], a, v => [(a, v)]
  | (b, w) :: rest, a, v =>
    if a < b then (a, v) :: (b, w) :: rest
    else if a = b then (a, v) :: rest
    else (b, w) :: insertCell rest a v

/-- Unlist an address. -/
def eraseCell (m : Memory) (a : Nat) : Memory := m.filter fun cell => cell.1 != a

/-- Write one cell, keeping the canonical form: writing what an unlisted address reads as removes the entry. -/
def writeByte (m : Memory) (a : Nat) (v : Byte) : Memory :=
  if v = unlistedByte then eraseCell m a else insertCell m a v

/-- The canonical form from an address on: strictly rising addresses, each of them at most 255 (10_state.md R30),
no entry equal to what an unlisted address reads as. -/
def wfFrom : Nat → Memory → Bool
  | _, [] => true
  | lo, (a, v) :: rest => decide (lo ≤ a) && decide (a ≤ 255) && decide (v ≠ unlistedByte) && wfFrom (a + 1) rest

/-- The canonical form of a memory. -/
def Memory.wf (m : Memory) : Bool := wfFrom 0 m

/-! ### Registers (10_state.md R21 to R23) -/

/-- The index of the stack pointer (00_scope.md R6: SP_INDEX). -/
def spIndex : Fin 8 := 7

/-- `x[r]`. -/
def State.readReg (s : State) (r : Fin 8) : Byte := s.x[r]

/-- `x[r] <- v`. No register is hardwired (10_state.md R21). -/
def State.writeReg (s : State) (r : Fin 8) (v : Byte) : State := { s with x := s.x.set r v }

/-- `sp`, another name for `x[7]` (00_scope.md R8). -/
def State.sp (s : State) : Byte := s.readReg spIndex

/-! ### The other fields -/

/-- `pc <- target`. -/
def State.setPc (s : State) (target : Nat) : State := { s with pc := target }

/-- `fl <- v`, in one write. -/
def State.setFl (s : State) (v : Byte) : State := { s with fl := v }

/-- `run <- Halted` (44_control_flow.md R135). -/
def State.halt (s : State) : State := { s with run := .halted }

/-- `out <- out ++ [v]` (10_state.md R31). -/
def State.emit (s : State) (v : Byte) : State := { s with out := s.out ++ [v] }

/-- `mem[a] <- v` for an address in range. -/
def State.setMem (s : State) (a : Nat) (v : Byte) : State := { s with mem := writeByte s.mem a v }

/-! ### Faults (00_scope.md R10, 60_exceptions.md R158) -/

/-- Fault entry from the state the cycle began in: `fault <- (cause, index, ipc)` and `run <- Faulted`, where `ipc` is
the pc at the start of the cycle; nothing else changes and control goes nowhere (R158, R159). There is no return from
it (R160): only reset leaves the state. -/
def raise (s : State) (r : Raised) : State :=
  { s with run := .faulted, fault := ⟨r.cause, r.index, s.pc⟩ }

/-- The numeric cause codes (60_exceptions.md R151). -/
def FaultCause.code : FaultCause → Nat
  | .noFault => 0
  | .outOfBoundsMem => 1
  | .outOfBoundsReg => 2
  | .unknownOpcode => 3
  | .unsupportedOperation => 4

/-! ### Checked accesses (00_scope.md R9) -/

/-- `MemRead(addr, 1)`: addresses are integers and are not reduced before the check (20_memory.md R41). -/
def memRead (s : State) (addr : Int) : Checked Byte :=
  if addr < 0 ∨ addr > 255 then .error ⟨.outOfBoundsMem, addr⟩ else .ok (readByte s.mem addr.toNat)

/-- `MemWrite(addr, 1, v)`. -/
def memWrite (s : State) (addr : Int) (v : Byte) : Checked State :=
  if addr < 0 ∨ addr > 255 then .error ⟨.outOfBoundsMem, addr⟩ else .ok (s.setMem addr.toNat v)

/-! ### The stack pointer's moves (43_stack.md R122): they fault instead of wrapping -/

/-- The address a push or call stores to: one below `sp`; none when `sp` is 0 (43_stack.md R119, R122). -/
def pushAddress (s : State) : Checked Byte :=
  if s.sp = 0x00#8 then .error ⟨.outOfBoundsMem, -1⟩ else .ok (s.sp - 1)

/-- Push a byte: the pointer moves down first, then the value is computed from the state after that move and
written (43_stack.md R119; the order of the source's two statements, R120, log entry 8). -/
def pushWith (s : State) (value : State → Byte) : Checked State := do
  let slot ← pushAddress s
  let s1 := s.writeReg spIndex slot
  memWrite s1 s1.sp.toNat (value s1)

/-- Move the pointer up past the popped byte (43_stack.md R121, R122). -/
def incrementSp (s : State) : Checked State :=
  if s.sp.toNat + 1 > 255 then .error ⟨.outOfBoundsMem, 256⟩ else .ok (s.writeReg spIndex (s.sp + 1))

/-! ### The cycle around a handler (40_cycle_dispatch.md) -/

/-- Fetch the opcode byte and, unconditionally, the two bytes after it, in this order (R81). -/
def fetch (s : State) : Checked Window := do
  let ir ← memRead s s.pc
  let opa ← memRead s (s.pc + 1)
  let opb ← memRead s (s.pc + 2)
  return ⟨ir, opa, opb⟩

/-- The generic advance before dispatch, from an operand count and a sets_pc bit (R82). -/
def advance (operandCount : Nat) (setsPc : Bool) (s : State) : State :=
  if setsPc then s else s.setPc (s.pc + 1 + operandCount)

/-- Run an instruction's handler as the cycle does (R82, R90): advance first, then the handler; a `raise` discards
every write, the advance included (00_scope.md R10). The count and the bit are those of the instruction's row, which
a well-formed opcode map keeps (30_encoding.md R67; log entry 11). -/
def runHandler (op : Opcode) (handler : State → Checked State) (s : State) : Result :=
  match handler (advance op.operandCount op.setsPc s) with
  | .ok t => .next t
  | .error r => .next (raise s r)

/-- A cycle whose opcode byte is not in the map (R84, R85): under `fatal` it raises UnknownOpcode; under `legacy_nop`
the advance, computed from the byte itself, is its whole effect. -/
def unknownOpcodeCycle (policy : UnknownOpcodePolicy) (ir : Byte) (s : State) : Result :=
  match policy with
  | .fatal => .next (raise s ⟨.unknownOpcode, ir.toNat⟩)
  | .legacyNop => .next (advance (operandCountField ir) (setsPcBit ir) s)

/-- Place a window of bytes at the program counter, the first at the lowest address (20_memory.md R42). -/
def placeWindow (s : State) (w : Window) : State :=
  ((s.setMem s.pc w.ir).setMem (s.pc + 1) w.opa).setMem (s.pc + 2) w.opb

end Sys2Proof.Machine
end

