-- ==== Sys2Proof/Machine/Operands.lean ====
section
/-! DEFINITION. The operand forms (30_encoding.md R63, R64): a register operand and an immediate. -/

namespace Sys2Proof.Machine

/-- `RegIdx(i)` (00_scope.md R9): all 8 bits of a register operand take part; a value above 7 raises OutOfBoundsReg
with the operand byte as index (60_exceptions.md R153). -/
def regIdx (a : Byte) : Checked (Fin 8) :=
  if h : a.toNat < 8 then .ok ⟨a.toNat, h⟩ else .error ⟨.outOfBoundsReg, a.toNat⟩

/-- An immediate operand: the byte as it stands, never checked (30_encoding.md R63, 40_cycle_dispatch.md R86). -/
def immediate (imm : Byte) : Byte := imm

/-- The handler shape of format R: operand `a` is checked before the handler acts (40_cycle_dispatch.md R86). -/
def withReg (a : Byte) (act : Fin 8 → State → Checked State) (s : State) : Checked State := do
  let ra ← regIdx a
  act ra s

/-- The handler shape of format RR: operand `a` is checked first, then operand `b` (40_cycle_dispatch.md R86, R87). -/
def withRegs (a b : Byte) (act : Fin 8 → Fin 8 → State → Checked State) (s : State) : Checked State := do
  let ra ← regIdx a
  let rb ← regIdx b
  act ra rb s

end Sys2Proof.Machine
end

