-- ==== Sys2Proof/Machine/Alu.lean ====
section
/-! DEFINITION. The ALU family (41_alu.md): ADD, MUL, AND, OR, XOR, NOT, SHL, SHR.

Pure functions of bytes, each written to the first register; no flag, cell, output or run state is touched (R100). -/

namespace Sys2Proof.Machine

/-- `(x + y) mod 256` (R101). -/
def aluAdd (x y : Byte) : Byte := BitVec.ofNat 8 (x.toNat + y.toNat)

/-- `(x * y) mod 256` (R102). -/
def aluMul (x y : Byte) : Byte := BitVec.ofNat 8 (x.toNat * y.toNat)

/-- Bitwise and (R103). -/
def aluAnd (x y : Byte) : Byte := x &&& y

/-- Bitwise or (R104). -/
def aluOr (x y : Byte) : Byte := x ||| y

/-- Bitwise exclusive or (R105). -/
def aluXor (x y : Byte) : Byte := x ^^^ y

/-- `255 - x` (R106). -/
def aluNot (x : Byte) : Byte := BitVec.ofNat 8 (255 - x.toNat)

/-- `(x * 2^n) mod 256`, the count the whole byte (R107, R109). -/
def aluShl (x n : Byte) : Byte := BitVec.ofNat 8 (x.toNat * 2 ^ n.toNat)

/-- `floor(x / 2^n)`, the count the whole byte (R108, R109). -/
def aluShr (x n : Byte) : Byte := BitVec.ofNat 8 (x.toNat / 2 ^ n.toNat)

/-- The shape of the two-operand ALU instructions: `x[a] <- f x[a] x[b]`, computed from the old values and written
once (R100). -/
def aluTwo (f : Byte → Byte → Byte) (a b : Byte) : State → Checked State :=
  withRegs a b fun ra rb s => .ok (s.writeReg ra (f (s.readReg ra) (s.readReg rb)))

/-- ADD (R101). -/
def execAdd (a b : Byte) (s : State) : Result := runHandler .add (aluTwo aluAdd a b) s

/-- MUL (R102). -/
def execMul (a b : Byte) (s : State) : Result := runHandler .mul (aluTwo aluMul a b) s

/-- AND (R103). -/
def execAnd (a b : Byte) (s : State) : Result := runHandler .and (aluTwo aluAnd a b) s

/-- OR (R104). -/
def execOr (a b : Byte) (s : State) : Result := runHandler .or (aluTwo aluOr a b) s

/-- XOR (R105). -/
def execXor (a b : Byte) (s : State) : Result := runHandler .xor (aluTwo aluXor a b) s

/-- NOT (R106): one operand; the third fetched byte is ignored and unchecked. -/
def execNot (a : Byte) (s : State) : Result :=
  runHandler .not (withReg a fun ra s => .ok (s.writeReg ra (aluNot (s.readReg ra)))) s

/-- SHL (R107). -/
def execShl (a b : Byte) (s : State) : Result := runHandler .shl (aluTwo aluShl a b) s

/-- SHR (R108). -/
def execShr (a b : Byte) (s : State) : Result := runHandler .shr (aluTwo aluShr a b) s

end Sys2Proof.Machine
end

