-- ==== Sys2Proof/Machine/Flags.lean ====
section
/-! DEFINITION. The flags register: its three bits and the one computation that writes it (10_state.md R26,
42_compare.md R110). -/

namespace Sys2Proof.Machine

/-- `fl.E`, bit 0. -/
def flagE (fl : Byte) : Bool := fl.getLsbD 0

/-- `fl.G`, bit 1. -/
def flagG (fl : Byte) : Bool := fl.getLsbD 1

/-- `fl.L`, bit 2. -/
def flagL (fl : Byte) : Bool := fl.getLsbD 2

/-- A flag as a byte, 0 or 1. -/
def flagBit (b : Bool) : Byte := if b then 1#8 else 0#8

/-- All of `fl` from a comparison of two unsigned bytes: `(L << 2) | (G << 1) | E`, bits 7:3 zero (R110). -/
def compareFlags (va vb : Byte) : Byte :=
  (flagBit (decide (va.toNat < vb.toNat)) <<< 2) |||
    (flagBit (decide (va.toNat > vb.toNat)) <<< 1) |||
    flagBit (decide (va = vb))

end Sys2Proof.Machine
end

