-- ==== Sys2Proof/Machine/Compare.lean ====
section
/-! DEFINITION. The compare family (42_compare.md): CMP. -/

namespace Sys2Proof.Machine

/-- CMP (R110): all of `fl` in one write; the old value has no influence. -/
def execCmp (a b : Byte) (s : State) : Result :=
  runHandler .cmp (withRegs a b fun ra rb s => .ok (s.setFl (compareFlags (s.readReg ra) (s.readReg rb)))) s

end Sys2Proof.Machine
end

