-- ==== Sys2Proof/Machine/Control.lean ====
section
/-! DEFINITION. The control-flow family (44_control_flow.md): CALL, RET, JMP, JEQ, JNE, HLT.

For all but HLT the cycle does not advance: the handler starts with `pc = ipc` and writes `pc` on every path (R129). -/

namespace Sys2Proof.Machine

/-- The return address CALL pushes, `ipc + 2`: at most 255 in any cycle that fetched (R130; log entry 7). -/
def returnAddress (s : State) : Byte := BitVec.ofNat 8 (s.pc + 2)

/-- `pc <- x[r]`. -/
def State.jumpTo (s : State) (r : Fin 8) : State := s.setPc (s.readReg r).toNat

/-- The conditional jump of JEQ and JNE: to the register, or past the instruction's two bytes (R133, R134). -/
def jumpIf (cond : State → Bool) (ra : Fin 8) (s : State) : Checked State :=
  .ok (if cond s then s.jumpTo ra else s.setPc (s.pc + 2))

/-- CALL (R130): push the return address, then jump; the target register is read after the push. -/
def callTo (ra : Fin 8) (s : State) : Checked State := do
  let s1 ← pushWith s returnAddress
  return s1.jumpTo ra

/-- CALL (R130). -/
def execCall (a : Byte) (s : State) : Result := runHandler .call (withReg a callTo) s

/-- RET (R131): the popped byte becomes the pc. -/
def returnFrom (s : State) : Checked State := do
  let v ← memRead s s.sp.toNat
  let s1 ← incrementSp s
  return s1.setPc v.toNat

/-- RET (R131): both fetched operand bytes are ignored. -/
def execRet (s : State) : Result := runHandler .ret returnFrom s

/-- JMP (R132). -/
def execJmp (a : Byte) (s : State) : Result := runHandler .jmp (withReg a fun ra s => .ok (s.jumpTo ra)) s

/-- JEQ (R133): the operand is checked on both paths. -/
def execJeq (a : Byte) (s : State) : Result := runHandler .jeq (withReg a (jumpIf fun s => flagE s.fl)) s

/-- JNE (R134): the operand is checked on both paths. -/
def execJne (a : Byte) (s : State) : Result := runHandler .jne (withReg a (jumpIf fun s => !flagE s.fl)) s

/-- HLT (R135): clears the running state; the cycle has advanced the pc by 1. -/
def execHlt (s : State) : Result := runHandler .hlt (fun s => .ok s.halt) s

end Sys2Proof.Machine
end

