-- ==== Sys2Proof/Machine/LoadOutput.lean ====
section
/-! DEFINITION. Load immediate and register output (45_load_immediate_and_output.md): LDI, PRN. -/

namespace Sys2Proof.Machine

/-- LDI (R140). -/
def execLdi (a imm : Byte) (s : State) : Result :=
  runHandler .ldi (withReg a fun ra s => .ok (s.writeReg ra (immediate imm))) s

/-- PRN (R141): one byte appended to the output log. -/
def execPrn (a : Byte) (s : State) : Result :=
  runHandler .prn (withReg a fun ra s => .ok (s.emit (s.readReg ra))) s

end Sys2Proof.Machine
end

