-- ==== Sys2Proof/Machine/Stack.lean ====
section
/-! DEFINITION. The stack family (43_stack.md): PUSH, POP. -/

namespace Sys2Proof.Machine

/-- PUSH (R120): the pushed register is read after the decrement. -/
def execPush (a : Byte) (s : State) : Result :=
  runHandler .push (withReg a fun ra s => pushWith s fun s1 => s1.readReg ra) s

/-- POP (R121): read, write the register, then move the pointer, which is read after that write; a pointer that would
leave 0 to 255 discards the write. -/
def popInto (ra : Fin 8) (s : State) : Checked State := do
  let v ← memRead s s.sp.toNat
  incrementSp (s.writeReg ra v)

/-- POP (R121). -/
def execPop (a : Byte) (s : State) : Result := runHandler .pop (withReg a popInto) s

end Sys2Proof.Machine
end

