-- ==== Sys2Proof/Machine/Cycle.lean ====
section
/-! DEFINITION. One cycle of a running machine (40_cycle_dispatch.md R90). -/

namespace Sys2Proof.Machine

/-- One cycle from a running state (R90): fetch, look the opcode up, run its handler or take the unknown-opcode path;
the fetch can raise (R81). -/
def cycle (c : Config) (s : State) : Result :=
  match fetch s with
  | .error r => .next (raise s r)
  | .ok w =>
    match decodeWindow c w with
    | .ok i => exec i s
    | .error _ => unknownOpcodeCycle c.unknownOpcode w.ir s

end Sys2Proof.Machine
end

