-- ==== Sys2Proof/Machine/Step.lean ====
section
/-! DEFINITION. The step of the machine: one cycle where it runs, nothing where it has stopped. -/

namespace Sys2Proof.Machine

/-- The step under a configuration: a cycle executes if and only if `run = Running` (R80). `Halted` and `Faulted` are
absorbing and nothing changes (10_state.md R28). DESIGN CHOICE (log entry 3): "no step" is a step that changes nothing. -/
def stepWith (c : Config) (s : State) : Result :=
  match s.run with
  | .running => cycle c s
  | .halted => .next s
  | .faulted => .next s

/-- The step of the machine under the default configuration (00_scope.md R6). -/
def step (s : State) : Result := stepWith defaultConfig s

/-- `s` with an instruction's bytes where the next cycle fetches it: at `pc`, or at 0 where no instruction can execute
at `pc` (20_memory.md R41), and with `run` as a cycle needs it. Log entry 6. -/
def State.withFetchWord (s : State) (nbits w : Nat) : State :=
  placeWindow { s with pc := if s.pc ≤ 253 then s.pc else 0, run := .running } (windowOfWord nbits w)

end Sys2Proof.Machine
end

