-- ==== Sys2Proof/Machine/Boundary.lean ====
section
/-! DEFINITION. The boundary between the core and the host (70_reset_and_hazards.md R173 to R177): reset, load, start,
the loader's contract, what the host can observe, and how it renders the output log.

The phase of a session is not state of the core (10_state.md R20); it says which host moves exist (R173, log entry 13). -/

namespace Sys2Proof.Machine

/-- Whether the first cycle may have executed (R173: load only after reset and before the first cycle). -/
inductive Phase where
  | loading
  | started
  deriving DecidableEq, Repr

/-- A core and the host's phase. -/
structure Session where
  phase : Phase
  core : State
  deriving DecidableEq, Repr

/-- The events from the host to the core (R173). -/
inductive HostMove where
  | reset
  | load (addr : Nat) (byte : Byte)
  | start
  deriving DecidableEq, Repr

/-- The effect of a host move, or a refusal where the host has no such move (R173, R174). Reset is allowed at any time
and gives the reset state whatever was before (R170). -/
def hostMove (m : HostMove) (z : Session) : Host.Outcome Session Fault Refusal :=
  match m, z.phase with
  | .reset, _ => .next ⟨.loading, State.reset⟩
  | .load addr byte, .loading =>
    if addr ≤ 255 then .next ⟨.loading, z.core.setMem addr byte⟩ else .refused .noSuchHostMove
  | .load _ _, .started => .refused .noSuchHostMove
  | .start, .loading => .next ⟨.started, z.core⟩
  | .start, .started => .refused .noSuchHostMove

/-- The core's own move in a session: none before start (R172), then one cycle after another. -/
def sessionStep (c : Config) (z : Session) : Host.Outcome Session Fault Refusal :=
  match z.phase with
  | .loading => .next z
  | .started =>
    match stepWith c z.core with
    | .next t => .next ⟨.started, t⟩
    | .fault r => .fault r
    | .refused r => .refused r

/-- Write bytes to ascending addresses from `a` on (R176). -/
def loadFrom : Nat → List Byte → State → State
  | _, [], s => s
  | a, b :: rest, s => loadFrom (a + 1) rest (s.setMem a b)

/-- The loader's contract (R176): the launch state of a program of at most 256 bytes; for a longer one LoadError, and
the core is never started (60_exceptions.md R156). -/
def loadProgram (program : List Byte) : Result :=
  if program.length ≤ 256 then .next (loadFrom 0 program State.reset) else .fault .loadError

/-- What the host may observe at any time: `out`, `run` and `fault` (R173). -/
def observe (s : State) : List Byte × RunState × FaultRecord := (s.out, s.run, s.fault)

/-- The whole state, which the host may inspect once the machine has stopped (R173, R177). -/
def inspect (s : State) : Option State := if s.run = .running then none else some s

/-- The host's rendering of the output log (10_state.md R31, 70_reset_and_hazards.md R175): the decimal numeral of each
byte followed by a line break. -/
def renderOut (out : List Byte) : String :=
  out.foldl (fun text v => text ++ Nat.repr v.toNat ++ "\n") ""

end Sys2Proof.Machine
end

