-- ==== Sys2Proof/Safety.lean ====
section
/-! DEFINITION. What counts as a safe state and a safe run, in the terms the statements use (10_state.md R35,
40_cycle_dispatch.md R91). -/

namespace Sys2Proof.Machine

/-- The largest reachable pc (10_state.md R24): 256 under `fatal`, 257 under `legacy_nop`. -/
def pcBound : UnknownOpcodePolicy → Nat
  | .fatal => 256
  | .legacyNop => 257

/-- The only values `fl` takes (10_state.md R27). -/
def legalFlags (fl : Byte) : Bool := fl == 0x00#8 || fl == 0x01#8 || fl == 0x02#8 || fl == 0x04#8

/-- The fault record agrees with the run state (10_state.md R32, 60_exceptions.md R151, R159): no fault is recorded as
`(0, 0, 0)` unless `run = Faulted`, and then a cause that exists is recorded with `ipc = pc`. -/
abbrev FaultAgrees (s : State) : Prop :=
  if s.run = .faulted then
    s.fault.cause ≠ .noFault ∧ s.fault.cause ≠ .unsupportedOperation ∧ s.fault.ipc = s.pc
  else s.fault = ⟨.noFault, 0, 0⟩

/-- The invariant of every reachable state (10_state.md R35) under a configuration's policy, with the canonical form of
the model's memory: its addresses are 0 to 255. -/
abbrev Inv (c : Config) (s : State) : Prop :=
  s.mem.wf = true ∧ s.pc ≤ pcBound c.unknownOpcode ∧ legalFlags s.fl = true ∧ FaultAgrees s

/-- A successful end of a run: Halted, never Faulted (40_cycle_dispatch.md R91). -/
abbrev SuccessfulEnd (s : State) : Prop := s.run = .halted

/-- A safe state: no fatal error has been raised. -/
abbrev Safe (s : State) : Prop := s.run ≠ .faulted

/-- Instructions executed one after another, stopping where one answers no next state. -/
def execAll : List Instr → State → Result
  | [], s => .next s
  | i :: rest, s =>
    match exec i s with
    | .next t => execAll rest t
    | .fault r => .fault r
    | .refused r => .refused r

/-- The bytes a cycle starting in `s` looks at, in the order it fetches them (40_cycle_dispatch.md R81). -/
def bytesAtPc (s : State) : List Byte := [readByte s.mem s.pc, readByte s.mem (s.pc + 1), readByte s.mem (s.pc + 2)]

end Sys2Proof.Machine
end

