-- ==== Sys2Proof/Certificates/Slice0/Obligations.lean ====
section
/-! DEFINITION. The statements for the provers. A register is named by `Fin 8`; an operand byte `a` names it when
`a.toNat = ra.val`. Every fatal error of the spec is a next state with `run = .faulted` (log entry 4). -/

open Sys2Proof Sys2Proof.Machine

/-! ### Reset, launch and the host -/

/-- What reset leaves (10_state.md section 9). `x[7]`, `run` and `mem` are the source's values; `x[0]` to `x[6]`, `pc`,
`fl` and `fault` are the spec's own decisions D6, D7, D8, D12 (log entry 5). -/
def Obligations.ResetStateValues : Prop :=
  (∀ r : Fin 8, r.val ≤ 6 → State.reset.x[r] = 0x00#8) ∧
  State.reset.x[(7 : Fin 8)] = 0xF4#8 ∧
  State.reset.pc = 0 ∧
  State.reset.fl = 0x00#8 ∧
  State.reset.run = .running ∧
  (∀ a, a ≤ 255 → readByte State.reset.mem a = 0x00#8) ∧
  State.reset.out = [] ∧
  State.reset.fault = ⟨.noFault, 0, 0⟩

/-- The reset state meets the invariant under every configuration (10_state.md section 10). -/
def Obligations.ResetMeetsInvariant : Prop :=
  ∀ c : Config, Inv c State.reset

/-- The loader's contract (70_reset_and_hazards.md section 3): a program of at most 256 bytes gives the reset state with
its bytes in the first cells and 0x00 in every other; a longer one is LoadError and no state. -/
def Obligations.LaunchStateOfProgram : Prop :=
  ∀ program : List Byte,
    (program.length ≤ 256 →
      ∃ t, loadProgram program = .next t ∧ t = { State.reset with mem := t.mem } ∧
        (∀ (k : Nat) (h : k < program.length), readByte t.mem k = program[k]) ∧
        (∀ k, program.length ≤ k → readByte t.mem k = 0x00#8)) ∧
    (256 < program.length → loadProgram program = .fault .loadError)

/-- Every launch state meets the invariant, the canonical form of memory included (10_state.md section 10). -/
def Obligations.LaunchMeetsInvariant : Prop :=
  ∀ (c : Config) (program : List Byte) (t : State), loadProgram program = .next t → Inv c t

/-- The host's moves (70_reset_and_hazards.md section 3, D19; log entry 13): reset at any time gives the reset state; a
load before start writes one cell; after start there is no load and no second start; the core does not move before start. -/
def Obligations.HostMovesAndWhenTheyExist : Prop :=
  (∀ z : Session, hostMove .reset z = .next ⟨.loading, State.reset⟩) ∧
  (∀ (s : State) (a : Nat) (v : Byte), a ≤ 255 →
    hostMove (.load a v) ⟨.loading, s⟩ = .next ⟨.loading, { s with mem := writeByte s.mem a v }⟩) ∧
  (∀ (s : State) (a : Nat) (v : Byte), 255 < a → hostMove (.load a v) ⟨.loading, s⟩ = .refused .noSuchHostMove) ∧
  (∀ (s : State) (a : Nat) (v : Byte), hostMove (.load a v) ⟨.started, s⟩ = .refused .noSuchHostMove) ∧
  (∀ s : State, hostMove .start ⟨.loading, s⟩ = .next ⟨.started, s⟩) ∧
  (∀ s : State, hostMove .start ⟨.started, s⟩ = .refused .noSuchHostMove) ∧
  (∀ (c : Config) (s : State), sessionStep c ⟨.loading, s⟩ = .next ⟨.loading, s⟩) ∧
  (∀ (c : Config) (s t : State), stepWith c s = .next t → sessionStep c ⟨.started, s⟩ = .next ⟨.started, t⟩)

/-! ### Memory and registers -/

/-- The checked access primitives (00_scope.md R9): RegIdx, MemRead and MemWrite, with integer addresses that are not
reduced before the check. -/
def Obligations.CheckedAccessPrimitives : Prop :=
  (∀ i : Byte, 7 < i.toNat → regIdx i = .error ⟨.outOfBoundsReg, i.toNat⟩) ∧
  (∀ (i : Byte) (r : Fin 8), i.toNat = r.val → regIdx i = .ok r) ∧
  (∀ (s : State) (addr : Int), addr < 0 ∨ 255 < addr → memRead s addr = .error ⟨.outOfBoundsMem, addr⟩) ∧
  (∀ (s : State) (addr : Nat), addr ≤ 255 → memRead s addr = .ok (readByte s.mem addr)) ∧
  (∀ (s : State) (addr : Int) (v : Byte), addr < 0 ∨ 255 < addr →
    memWrite s addr v = .error ⟨.outOfBoundsMem, addr⟩) ∧
  (∀ (s : State) (addr : Nat) (v : Byte), addr ≤ 255 →
    memWrite s addr v = .ok { s with mem := writeByte s.mem addr v })

/-- The memory contract (20_memory.md R40): a read in range returns the cell; a write in range sets that cell and changes
nothing else; so a read returns the latest write, else what the loader put there, else the reset value 0x00. -/
def Obligations.MemoryReadWriteContract : Prop :=
  (∀ (s : State) (a : Nat), a ≤ 255 → memRead s a = .ok (readByte s.mem a)) ∧
  (∀ (s : State) (a : Nat) (v : Byte), a ≤ 255 →
    ∃ t, memWrite s a v = .ok t ∧ t = { s with mem := t.mem } ∧ memRead t a = .ok v ∧
      ∀ d : Nat, d ≠ a → readByte t.mem d = readByte s.mem d) ∧
  (∀ (program : List Byte) (t : State), loadProgram program = .next t →
    (∀ (k : Nat) (h : k < program.length), memRead t k = .ok program[k]) ∧
    (∀ k : Nat, program.length ≤ k → k ≤ 255 → memRead t k = .ok 0x00#8)) ∧
  (∀ k : Nat, k ≤ 255 → memRead State.reset k = .ok 0x00#8)

/-- Which instructions access data memory, and how much (20_memory.md R44). The fetch reads three bytes and depends on no
other cell. POP and RET depend on no cell but the one at the pointer, which a POP or RET that completes gives to the
register or the pc (POP R7 then adds 1: D15, log entry 8), and leave memory alone. PUSH and CALL with a legal operand and
a pointer that is not 0 write exactly one byte, which depends on no cell; otherwise they fault and leave memory alone
(D10, D11; log entries 4 and 10). Every other instruction makes no data access. A write of the value already present
changes nothing. -/
def Obligations.DataAccessesPerInstruction : Prop :=
  (∀ s : State, s.pc ≤ 253 →
    fetch s = .ok ⟨readByte s.mem s.pc, readByte s.mem (s.pc + 1), readByte s.mem (s.pc + 2)⟩) ∧
  (∀ (s : State) (m : Memory), readByte m s.pc = readByte s.mem s.pc →
    readByte m (s.pc + 1) = readByte s.mem (s.pc + 1) → readByte m (s.pc + 2) = readByte s.mem (s.pc + 2) →
    fetch { s with mem := m } = fetch s) ∧
  (∀ (i : Instr) (s t : State) (m : Memory), i.opcode ∉ [.push, .call, .pop, .ret] → exec i s = .next t →
    t.mem = s.mem ∧ exec i { s with mem := m } = .next { t with mem := m }) ∧
  (∀ (i : Instr) (s t : State) (m : Memory), i.opcode ∈ [.pop, .ret] → exec i s = .next t →
    readByte m s.x[(7 : Fin 8)].toNat = readByte s.mem s.x[(7 : Fin 8)].toNat →
    t.mem = s.mem ∧ exec i { s with mem := m } = .next { t with mem := m }) ∧
  (∀ (s t : State) (a : Byte) (ra : Fin 8), a.toNat = ra.val → exec (.pop a) s = .next t → t.run ≠ .faulted →
    t.x[ra] = if ra = 7 then readByte s.mem s.x[(7 : Fin 8)].toNat + 1 else readByte s.mem s.x[(7 : Fin 8)].toNat) ∧
  (∀ s t : State, exec .ret s = .next t → t.run ≠ .faulted →
    t.pc = (readByte s.mem s.x[(7 : Fin 8)].toNat).toNat) ∧
  (∀ (s : State) (a : Byte) (ra : Fin 8), a.toNat = ra.val → s.x[(7 : Fin 8)] ≠ 0x00#8 →
    ∀ i ∈ [Instr.push a, .call a], ∃ (t : State) (v : Byte), exec i s = .next t ∧ t.run = s.run ∧
      t.mem = writeByte s.mem (s.x[(7 : Fin 8)] - 1).toNat v ∧
      ∀ m : Memory, exec i { s with mem := m } =
        .next { t with mem := writeByte m (s.x[(7 : Fin 8)] - 1).toNat v }) ∧
  (∀ (s : State) (a : Byte), 7 < a.toNat ∨ s.x[(7 : Fin 8)] = 0x00#8 →
    ∀ i ∈ [Instr.push a, .call a], ∃ t : State, exec i s = .next t ∧ t.run = .faulted ∧ t.mem = s.mem ∧
      ∀ m : Memory, exec i { s with mem := m } = .next { t with mem := m }) ∧
  (∀ (m : Memory) (a : Nat), m.wf = true → a ≤ 255 → writeByte m a (readByte m a) = m)

/-! ### Encoding -/

/-- The fields of the opcode byte `NNACIIII` and the length it gives (30_encoding.md section 1). -/
def Obligations.OpcodeByteLayout : Prop :=
  ∀ ir : Byte,
    ir.toNat = 64 * operandCountField ir + 32 * (aluFlagBit ir).toNat + 16 * (setsPcBit ir).toNat + identifierField ir ∧
    operandCountField ir ≤ 3 ∧ identifierField ir ≤ 15 ∧ lengthOf ir = 1 + operandCountField ir

/-- An instruction is one opcode byte and its operand bytes, 1 to 3 bytes, its length `1 + ir[7:6]` read from the opcode
byte alone, under every map that keeps the bits of section 3; a byte whose `ir[7:6]` is 3 is an unknown opcode
(30_encoding.md R60, R62). -/
def Obligations.InstructionLengthFromOpcodeByte : Prop :=
  ∀ c : Config, c.wellFormed = true →
    (∀ i : Instr, ∃ ir operands, encode c i = ir :: operands ∧ ir = c.opcodeMap i.opcode ∧
      operands.length = ir.toNat / 64 ∧ (encode c i).length = lengthOf ir ∧ lengthOf ir = 1 + ir.toNat / 64 ∧
      lengthOf ir ≤ 3) ∧
    (∀ (ir opa opb : Byte) (i : Instr), decode c [ir, opa, opb] = .ok i → (encode c i).length = 1 + ir.toNat / 64) ∧
    ∀ ir opa opb : Byte, 0xC0 ≤ ir.toNat → decode c [ir, opa, opb] = .error (.unknownOpcode ir)

/-- The default opcode bytes, each written out from the spec's table, decode to the instruction they stand for with every
operand, and an excess fetched byte is ignored. The bytes are general knowledge, not the source's (log entry 1). -/
def Obligations.OpcodeMapWordsDecode : Prop :=
  ∀ a b : Byte,
    decode defaultConfig [0b10000010#8, a, b] = .ok (.ldi a b) ∧
    decode defaultConfig [0b01000111#8, a, b] = .ok (.prn a) ∧
    decode defaultConfig [0b00000001#8, a, b] = .ok .hlt ∧
    decode defaultConfig [0b10100000#8, a, b] = .ok (.add a b) ∧
    decode defaultConfig [0b10100010#8, a, b] = .ok (.mul a b) ∧
    decode defaultConfig [0b10101000#8, a, b] = .ok (.and a b) ∧
    decode defaultConfig [0b10101010#8, a, b] = .ok (.or a b) ∧
    decode defaultConfig [0b10101011#8, a, b] = .ok (.xor a b) ∧
    decode defaultConfig [0b01101001#8, a, b] = .ok (.not a) ∧
    decode defaultConfig [0b10101100#8, a, b] = .ok (.shl a b) ∧
    decode defaultConfig [0b10101101#8, a, b] = .ok (.shr a b) ∧
    decode defaultConfig [0b10100111#8, a, b] = .ok (.cmp a b) ∧
    decode defaultConfig [0b01000101#8, a, b] = .ok (.push a) ∧
    decode defaultConfig [0b01000110#8, a, b] = .ok (.pop a) ∧
    decode defaultConfig [0b01010000#8, a, b] = .ok (.call a) ∧
    decode defaultConfig [0b00010001#8, a, b] = .ok .ret ∧
    decode defaultConfig [0b01010100#8, a, b] = .ok (.jmp a) ∧
    decode defaultConfig [0b01010101#8, a, b] = .ok (.jeq a) ∧
    decode defaultConfig [0b01010110#8, a, b] = .ok (.jne a)

/-- Every other opcode byte is unknown under the default map (30_encoding.md sections 3 and 4; log entry 1 for the bytes). -/
def Obligations.OtherOpcodeBytesUnknown : Prop :=
  ∀ ir opa opb : Byte,
    ir.toNat ∉ [0x82, 0x47, 0x01, 0xA0, 0xA2, 0xA8, 0xAA, 0xAB, 0x69, 0xAC, 0xAD, 0xA7, 0x45, 0x46, 0x50, 0x11, 0x54,
      0x55, 0x56] →
    decode defaultConfig [ir, opa, opb] = .error (.unknownOpcode ir)

/-- The ALU bit takes part in the match (30_encoding.md sections 3 and 4): a defined byte with bit 5 flipped is unknown,
except that LDI's and MUL's bytes are each other's (the spec's table over its sentence, log entry 16). -/
def Obligations.AluBitTakesPartInTheMatch : Prop :=
  (∀ op : Opcode, op ≠ .ldi → op ≠ .mul → opcodeOf defaultConfig (ls8OpcodeByte op ^^^ 0x20#8) = none) ∧
  opcodeOf defaultConfig (ls8OpcodeByte .ldi ^^^ 0x20#8) = some .mul ∧
  opcodeOf defaultConfig (ls8OpcodeByte .mul ^^^ 0x20#8) = some .ldi

/-- Decoding the encoding of any instruction gives it back, whatever bytes follow, for every operand byte and every
well-formed opcode map, the default among them (30_encoding.md sections 2 and 3). -/
def Obligations.DecodeOfEncodeIsTheInstruction : Prop :=
  (∀ (c : Config) (i : Instr) (p q : Byte), c.wellFormed = true → decode c (encode c i ++ [p, q]) = .ok i) ∧
  ∀ (i : Instr) (p q : Byte), decode defaultConfig (encode defaultConfig i ++ [p, q]) = .ok i

/-- Encoding what a window decodes to gives back the window's bytes, as many as the opcode byte says (30_encoding.md
sections 1 and 2). -/
def Obligations.EncodeOfDecodedIsTheBytes : Prop :=
  ∀ (c : Config) (ir opa opb : Byte) (i : Instr), c.wellFormed = true → decode c [ir, opa, opb] = .ok i →
    encode c i = [ir, opa, opb].take (lengthOf ir)

/-! ### The cycle -/

/-- A running step whose three fetched bytes decode runs the decoded instruction, the generic advance included in it
(40_cycle_dispatch.md sections 1 and 4; log entry 11). -/
def Obligations.StepRunsDecodedInstruction : Prop :=
  (∀ (c : Config) (s : State) (i : Instr), s.run = .running → s.pc ≤ 253 →
    decode c [readByte s.mem s.pc, readByte s.mem (s.pc + 1), readByte s.mem (s.pc + 2)] = .ok i →
    stepWith c s = exec i s) ∧
  (∀ (s : State) (i : Instr), s.run = .running → s.pc ≤ 253 →
    decode defaultConfig [readByte s.mem s.pc, readByte s.mem (s.pc + 1), readByte s.mem (s.pc + 2)] = .ok i →
    step s = exec i s)

/-- The fetch window (40_cycle_dispatch.md section 1, D9; log entry 10): a cycle at pc 254 or above faults, whatever the
bytes there, with the lowest address out of range, and changes nothing else. -/
def Obligations.FetchAbove253Faults : Prop :=
  ∀ (c : Config) (s : State), s.run = .running → 254 ≤ s.pc →
    stepWith c s = .next { s with
      run := .faulted, fault := ⟨.outOfBoundsMem, if s.pc ≤ 256 then 256 else (s.pc : Int), s.pc⟩ }

/-- An unknown opcode under `fatal` (40_cycle_dispatch.md section 2, D3, D11): UnknownOpcode with the byte, nothing else
changed; and `fatal` is the policy of `step` (log entry 2). -/
def Obligations.UnknownOpcodeUnderFatal : Prop :=
  (∀ (c : Config) (s : State), c.unknownOpcode = .fatal → s.run = .running → s.pc ≤ 253 →
    (∀ op : Opcode, c.opcodeMap op ≠ readByte s.mem s.pc) →
    stepWith c s = .next { s with
      run := .faulted, fault := ⟨.unknownOpcode, ((readByte s.mem s.pc).toNat : Int), s.pc⟩ }) ∧
  (∀ s : State, s.run = .running → s.pc ≤ 253 →
    (∀ op : Opcode, ls8OpcodeByte op ≠ readByte s.mem s.pc) →
    step s = .next { s with
      run := .faulted, fault := ⟨.unknownOpcode, ((readByte s.mem s.pc).toNat : Int), s.pc⟩ })

/-- An unknown opcode under `legacy_nop` (40_cycle_dispatch.md section 2, D3, D4): with bit 4 clear only the pc advances,
by 1 and the byte's bits 7:6; with bit 4 set nothing changes, so the machine repeats the cycle for ever. -/
def Obligations.UnknownOpcodeUnderLegacyNop : Prop :=
  ∀ (c : Config) (s : State), c.unknownOpcode = .legacyNop → s.run = .running → s.pc ≤ 253 →
    (∀ op : Opcode, c.opcodeMap op ≠ readByte s.mem s.pc) →
    ((readByte s.mem s.pc).getLsbD 4 = false →
      stepWith c s = .next { s with pc := s.pc + 1 + (readByte s.mem s.pc).toNat / 64 }) ∧
    ((readByte s.mem s.pc).getLsbD 4 = true → stepWith c s = .next s)

/-- Halted and Faulted are absorbing (10_state.md section 5): nothing changes. That "no step" is a step to the same state
is the model's choice (log entry 3). -/
def Obligations.StoppedMachineIsFrozen : Prop :=
  ∀ (c : Config) (s : State), s.run ≠ .running → stepWith c s = .next s

/-- The generic advance (40_cycle_dispatch.md R82): in every cycle that does not fault, an opcode byte with bit 4 clear
leaves the pc at `ipc + 1 + ir[7:6]`, whether the byte is defined or not, with no reduction modulo 256; with bit 4 set
the pc is the handler's: an unknown byte leaves it, CALL pushes and an untaken JEQ or JNE goes to `ipc + 2`. -/
def Obligations.GenericAdvanceFromOpcodeByte : Prop :=
  ∀ (c : Config) (s t : State), c.wellFormed = true → s.run = .running → stepWith c s = .next t → t.run ≠ .faulted →
    ((readByte s.mem s.pc).getLsbD 4 = false → t.pc = s.pc + 1 + (readByte s.mem s.pc).toNat / 64) ∧
    ((readByte s.mem s.pc).getLsbD 4 = true →
      ((∀ op : Opcode, c.opcodeMap op ≠ readByte s.mem s.pc) → t.pc = s.pc) ∧
      (∀ a : Byte, decode c (bytesAtPc s) = .ok (.jeq a) → s.fl.getLsbD 0 = false → t.pc = s.pc + 2) ∧
      (∀ a : Byte, decode c (bytesAtPc s) = .ok (.jne a) → s.fl.getLsbD 0 = true → t.pc = s.pc + 2) ∧
      (∀ a : Byte, decode c (bytesAtPc s) = .ok (.call a) →
        (readByte t.mem (s.x[(7 : Fin 8)] - 1).toNat).toNat = s.pc + 2))

/-! ### The instructions -/

/-- ADD and MUL (41_alu.md section 2): the low 8 bits of the sum and of the product; nothing else changes but the pc,
which moves 3. -/
def Obligations.AddAndMulResults : Prop :=
  ∀ (s : State) (a b : Byte) (ra rb : Fin 8), a.toNat = ra.val → b.toNat = rb.val →
    (∃ v : Byte, v.toNat = (s.x[ra].toNat + s.x[rb].toNat) % 256 ∧
      exec (.add a b) s = .next { s with x := s.x.set ra v, pc := s.pc + 3 }) ∧
    (∃ v : Byte, v.toNat = (s.x[ra].toNat * s.x[rb].toNat) % 256 ∧
      exec (.mul a b) s = .next { s with x := s.x.set ra v, pc := s.pc + 3 })

/-- AND, OR and XOR (41_alu.md section 2): each of the 8 bits on its own. -/
def Obligations.BitwiseResults : Prop :=
  ∀ (s : State) (a b : Byte) (ra rb : Fin 8), a.toNat = ra.val → b.toNat = rb.val →
    (∃ v : Byte, (∀ k, k < 8 → v.getLsbD k = (s.x[ra].getLsbD k && s.x[rb].getLsbD k)) ∧
      exec (.and a b) s = .next { s with x := s.x.set ra v, pc := s.pc + 3 }) ∧
    (∃ v : Byte, (∀ k, k < 8 → v.getLsbD k = (s.x[ra].getLsbD k || s.x[rb].getLsbD k)) ∧
      exec (.or a b) s = .next { s with x := s.x.set ra v, pc := s.pc + 3 }) ∧
    (∃ v : Byte, (∀ k, k < 8 → v.getLsbD k = (s.x[ra].getLsbD k ^^ s.x[rb].getLsbD k)) ∧
      exec (.xor a b) s = .next { s with x := s.x.set ra v, pc := s.pc + 3 })

/-- NOT (41_alu.md section 2): `255 - x[a]`, every bit inverted. That it has one operand byte, so the pc moves 2, is general
knowledge (D22; log entry 14). -/
def Obligations.NotResult : Prop :=
  ∀ (s : State) (a : Byte) (ra : Fin 8), a.toNat = ra.val →
    ∃ v : Byte, v.toNat = 255 - s.x[ra].toNat ∧ (∀ k, k < 8 → v.getLsbD k = !s.x[ra].getLsbD k) ∧
      exec (.not a) s = .next { s with x := s.x.set ra v, pc := s.pc + 2 }

/-- SHL and SHR (41_alu.md section 2): the count is the whole byte, zeros enter, bits shifted out are lost (D28; log
entry 15). -/
def Obligations.ShiftResults : Prop :=
  ∀ (s : State) (a b : Byte) (ra rb : Fin 8), a.toNat = ra.val → b.toNat = rb.val →
    (∃ v : Byte, v.toNat = (s.x[ra].toNat * 2 ^ s.x[rb].toNat) % 256 ∧
      exec (.shl a b) s = .next { s with x := s.x.set ra v, pc := s.pc + 3 }) ∧
    (∃ v : Byte, v.toNat = s.x[ra].toNat / 2 ^ s.x[rb].toNat ∧
      exec (.shr a b) s = .next { s with x := s.x.set ra v, pc := s.pc + 3 })

/-- The ALU family (41_alu.md R100): each two-operand instruction is a pure function of the two registers' old values,
written to the first, and NOT one of one register; no flag, cell, output or run state is read or written, the pc moves
past the instruction, and the only faults are the register operands', `a` before `b`, with nothing written. -/
def Obligations.AluFamilyIsPureFunctionsOfRegisters : Prop :=
  (∀ form ∈ [Instr.add, .mul, .and, .or, .xor, .shl, .shr], ∃ f : Byte → Byte → Byte, ∀ (s : State) (a b : Byte),
    (∀ ra rb : Fin 8, a.toNat = ra.val → b.toNat = rb.val →
      exec (form a b) s = .next { s with x := s.x.set ra (f s.x[ra] s.x[rb]), pc := s.pc + 3 }) ∧
    (7 < a.toNat →
      exec (form a b) s = .next { s with run := .faulted, fault := ⟨.outOfBoundsReg, a.toNat, s.pc⟩ }) ∧
    (a.toNat ≤ 7 → 7 < b.toNat →
      exec (form a b) s = .next { s with run := .faulted, fault := ⟨.outOfBoundsReg, b.toNat, s.pc⟩ })) ∧
  ∃ f : Byte → Byte, ∀ (s : State) (a : Byte),
    (∀ ra : Fin 8, a.toNat = ra.val →
      exec (.not a) s = .next { s with x := s.x.set ra (f s.x[ra]), pc := s.pc + 2 }) ∧
    (7 < a.toNat →
      exec (.not a) s = .next { s with run := .faulted, fault := ⟨.outOfBoundsReg, a.toNat, s.pc⟩ })

/-- The arithmetic laws (41_alu.md section 3 and the source's properties S1, S2, S3 of 95_test_vectors.md): addition and
multiplication modulo 256, associative and commutative; double complement is the identity; a count of 8 or more gives
0 and a count of 0 changes nothing. -/
def Obligations.AluArithmeticLaws : Prop :=
  (∀ x y : Byte, (aluAdd x y).toNat = (x.toNat + y.toNat) % 256 ∧ (aluMul x y).toNat = (x.toNat * y.toNat) % 256) ∧
  (∀ x y z : Byte, aluAdd (aluAdd x y) z = aluAdd x (aluAdd y z) ∧ aluAdd x y = aluAdd y x) ∧
  (∀ x y z : Byte, aluMul (aluMul x y) z = aluMul x (aluMul y z) ∧ aluMul x y = aluMul y x) ∧
  (∀ x : Byte, aluNot (aluNot x) = x) ∧
  (∀ x n : Byte, 8 ≤ n.toNat → aluShl x n = 0x00#8 ∧ aluShr x n = 0x00#8) ∧
  (∀ x : Byte, aluShl x 0x00#8 = x ∧ aluShr x 0x00#8 = x)

/-- CMP (42_compare.md): the outcome table over unsigned bytes (D24; log entry 15), all of `fl` replaced whatever it was,
bits 7:3 zero; nothing else changes but the pc, which moves 3. -/
def Obligations.CmpResult : Prop :=
  ∀ (s : State) (a b : Byte) (ra rb : Fin 8), a.toNat = ra.val → b.toNat = rb.val →
    ∃ f : Byte,
      f.getLsbD 0 = decide (s.x[ra] = s.x[rb]) ∧
      f.getLsbD 1 = decide (s.x[ra].toNat > s.x[rb].toNat) ∧
      f.getLsbD 2 = decide (s.x[ra].toNat < s.x[rb].toNat) ∧
      (∀ k, 3 ≤ k → f.getLsbD k = false) ∧
      (s.x[ra].toNat = s.x[rb].toNat → f = 0x01#8) ∧
      (s.x[ra].toNat > s.x[rb].toNat → f = 0x02#8) ∧
      (s.x[ra].toNat < s.x[rb].toNat → f = 0x04#8) ∧
      exec (.cmp a b) s = .next { s with fl := f, pc := s.pc + 3 }

/-- PUSH (43_stack.md section 2): the pointer moves down, then the register is read and stored there, so PUSH R7 stores the
decremented pointer (D15; log entry 8). -/
def Obligations.PushResult : Prop :=
  ∀ (s : State) (a : Byte) (ra : Fin 8), a.toNat = ra.val → s.x[(7 : Fin 8)] ≠ 0x00#8 →
    exec (.push a) s = .next { s with
      x := s.x.set 7 (s.x[(7 : Fin 8)] - 1),
      mem := writeByte s.mem (s.x[(7 : Fin 8)] - 1).toNat (if ra = 7 then s.x[(7 : Fin 8)] - 1 else s.x[ra]),
      pc := s.pc + 2 }

/-- POP (43_stack.md section 2): the byte at the pointer goes to the register, then the pointer moves up; for POP R7 the
pointer ends at the popped byte plus 1 (D15; log entry 8). Memory is not changed. -/
def Obligations.PopResult : Prop :=
  ∀ (s : State) (a : Byte) (ra : Fin 8), a.toNat = ra.val →
    (ra ≠ 7 → s.x[(7 : Fin 8)].toNat < 255 →
      exec (.pop a) s = .next { s with
        x := (s.x.set ra (readByte s.mem s.x[(7 : Fin 8)].toNat)).set 7 (s.x[(7 : Fin 8)] + 1), pc := s.pc + 2 }) ∧
    (ra = 7 → (readByte s.mem s.x[(7 : Fin 8)].toNat).toNat < 255 →
      exec (.pop a) s = .next { s with
        x := s.x.set 7 (readByte s.mem s.x[(7 : Fin 8)].toNat + 1), pc := s.pc + 2 })

/-- CALL (44_control_flow.md section 2): the return address `ipc + 2` is pushed, then the target is read, so CALL R7 jumps to
the decremented pointer (D15; log entry 8); in every cycle that fetched, the return address fits a byte. -/
def Obligations.CallResult : Prop :=
  ∀ (s : State) (a : Byte) (ra : Fin 8), a.toNat = ra.val → s.x[(7 : Fin 8)] ≠ 0x00#8 →
    ∃ back : Byte, (s.pc ≤ 253 → back.toNat = s.pc + 2) ∧
      exec (.call a) s = .next { s with
        x := s.x.set 7 (s.x[(7 : Fin 8)] - 1),
        mem := writeByte s.mem (s.x[(7 : Fin 8)] - 1).toNat back,
        pc := if ra = 7 then (s.x[(7 : Fin 8)] - 1).toNat else s.x[ra].toNat }

/-- RET (44_control_flow.md section 2): the byte at the pointer becomes the pc and the pointer moves up. -/
def Obligations.RetResult : Prop :=
  ∀ s : State, s.x[(7 : Fin 8)].toNat < 255 →
    exec .ret s = .next { s with
      x := s.x.set 7 (s.x[(7 : Fin 8)] + 1), pc := (readByte s.mem s.x[(7 : Fin 8)].toNat).toNat }

/-- JMP, JEQ and JNE (44_control_flow.md section 2): to the register's value, or, where E says not to, past the two bytes;
only `fl.E` decides. -/
def Obligations.JumpResults : Prop :=
  ∀ (s : State) (a : Byte) (ra : Fin 8), a.toNat = ra.val →
    exec (.jmp a) s = .next { s with pc := s.x[ra].toNat } ∧
    exec (.jeq a) s = .next { s with pc := if s.fl.getLsbD 0 = true then s.x[ra].toNat else s.pc + 2 } ∧
    exec (.jne a) s = .next { s with pc := if s.fl.getLsbD 0 = true then s.pc + 2 else s.x[ra].toNat }

/-- HLT (44_control_flow.md section 2): Halted, from every state; that the pc is advanced by 1 rests on HLT's general-knowledge
opcode byte (D21; log entry 14). -/
def Obligations.HltResult : Prop :=
  ∀ s : State, exec .hlt s = .next { s with run := .halted, pc := s.pc + 1 }

/-- LDI (45_load_immediate_and_output.md): the immediate as it stands, every byte value legal (D23; log entry 15). -/
def Obligations.LdiResult : Prop :=
  ∀ (s : State) (a imm : Byte) (ra : Fin 8), a.toNat = ra.val →
    exec (.ldi a imm) s = .next { s with x := s.x.set ra imm, pc := s.pc + 3 }

/-- PRN (45_load_immediate_and_output.md): the register's byte at the end of the output log (D18; log entry 12); the host
shows each byte as its decimal numeral and a line break. -/
def Obligations.PrnResult : Prop :=
  (∀ (s : State) (a : Byte) (ra : Fin 8), a.toNat = ra.val →
    exec (.prn a) s = .next { s with out := s.out ++ [s.x[ra]], pc := s.pc + 2 }) ∧
  renderOut [] = "" ∧
  ∀ (out : List Byte) (v : Byte), renderOut (out ++ [v]) = renderOut out ++ Nat.repr v.toNat ++ "\n"

/-! ### Faults -/

/-- A register operand above 7 faults before anything is written, `a` before `b`, before any stack check and on both paths
of JEQ and JNE (40_cycle_dispatch.md section 3, D11, D13, D14; log entry 9). -/
def Obligations.RegisterOperandFaults : Prop :=
  ∀ (s : State) (a b : Byte),
    (7 < a.toNat →
      ∀ i ∈ [Instr.ldi a b, .prn a, .add a b, .mul a b, .and a b, .or a b, .xor a b, .not a, .shl a b, .shr a b,
        .cmp a b, .push a, .pop a, .call a, .jmp a, .jeq a, .jne a],
      exec i s = .next { s with run := .faulted, fault := ⟨.outOfBoundsReg, a.toNat, s.pc⟩ }) ∧
    (a.toNat ≤ 7 → 7 < b.toNat →
      ∀ i ∈ [Instr.add a b, .mul a b, .and a b, .or a b, .xor a b, .shl a b, .shr a b, .cmp a b],
      exec i s = .next { s with run := .faulted, fault := ⟨.outOfBoundsReg, b.toNat, s.pc⟩ })

/-- The stack pointer's bounds (43_stack.md section 3, D10; log entry 10): PUSH and CALL at `sp = 0` fault with -1, RET at
`sp = 255` and a POP whose pointer would be 256 fault with 256, and nothing is written. -/
def Obligations.StackBoundFaults : Prop :=
  ∀ (s : State) (a : Byte) (ra : Fin 8), a.toNat = ra.val →
    (s.x[(7 : Fin 8)] = 0x00#8 → ∀ i ∈ [Instr.push a, .call a],
      exec i s = .next { s with run := .faulted, fault := ⟨.outOfBoundsMem, -1, s.pc⟩ }) ∧
    (s.x[(7 : Fin 8)] = 0xFF#8 →
      exec .ret s = .next { s with run := .faulted, fault := ⟨.outOfBoundsMem, 256, s.pc⟩ }) ∧
    (ra ≠ 7 → s.x[(7 : Fin 8)] = 0xFF#8 →
      exec (.pop a) s = .next { s with run := .faulted, fault := ⟨.outOfBoundsMem, 256, s.pc⟩ }) ∧
    (ra = 7 → readByte s.mem s.x[(7 : Fin 8)].toNat = 0xFF#8 →
      exec (.pop a) s = .next { s with run := .faulted, fault := ⟨.outOfBoundsMem, 256, s.pc⟩ })

/-- Faults are precise (60_exceptions.md section 4, D11; log entry 4): a running step that ends Faulted leaves registers, pc,
flags, memory and output as they were, and records the pc. -/
def Obligations.FaultsArePrecise : Prop :=
  ∀ (c : Config) (s t : State), s.run = .running → stepWith c s = .next t → t.run = .faulted →
    t.x = s.x ∧ t.pc = s.pc ∧ t.fl = s.fl ∧ t.mem = s.mem ∧ t.out = s.out ∧
    t.fault.ipc = s.pc ∧ t.fault.cause ≠ .noFault

/-- What a fault records (60_exceptions.md section 2, D12; log entry 4), from a state within the invariant: -1, 256 or 257 for
memory; an operand byte above 7 for a register; the unknown opcode byte, under `fatal` only. -/
def Obligations.FaultCausesAndIndices : Prop :=
  ∀ (c : Config) (s t : State), Inv c s → s.run = .running → stepWith c s = .next t → t.run = .faulted →
    (t.fault.cause = .outOfBoundsMem ∧ t.fault.cause.code = 1 ∧ t.fault.index ∈ [(-1 : Int), 256, 257]) ∨
    (t.fault.cause = .outOfBoundsReg ∧ t.fault.cause.code = 2 ∧ 8 ≤ t.fault.index ∧ t.fault.index ≤ 255 ∧
      (t.fault.index = (readByte s.mem (s.pc + 1)).toNat ∨ t.fault.index = (readByte s.mem (s.pc + 2)).toNat)) ∨
    (t.fault.cause = .unknownOpcode ∧ t.fault.cause.code = 3 ∧ c.unknownOpcode = .fatal ∧
      t.fault.index = (readByte s.mem s.pc).toNat ∧ ∀ op : Opcode, c.opcodeMap op ≠ readByte s.mem s.pc)

/-- UnsupportedOperation is never raised (60_exceptions.md R155): no step of any configuration writes cause 4. -/
def Obligations.UnsupportedOperationNeverRaised : Prop :=
  FaultCause.unsupportedOperation.code = 4 ∧
  ∀ (c : Config) (s t : State), s.fault.cause ≠ .unsupportedOperation → stepWith c s = .next t →
    t.fault.cause ≠ .unsupportedOperation

/-! ### Frames -/

/-- The frame of the instructions that write one register (45 LDI, 41 the ALU): every other register, all flags, the
output, every byte of memory; and run and fault unless the register operand faulted. -/
def Obligations.RegisterWritersFrame : Prop :=
  ∀ (s t : State) (a b : Byte),
    ∀ i ∈ [Instr.ldi a b, .add a b, .mul a b, .and a b, .or a b, .xor a b, .not a, .shl a b, .shr a b],
    exec i s = .next t →
      (∀ r : Fin 8, a.toNat ≠ r.val → t.x[r] = s.x[r]) ∧ t.fl = s.fl ∧ t.out = s.out ∧
      (∀ d : Nat, readByte t.mem d = readByte s.mem d) ∧
      ((t.run = s.run ∧ t.fault = s.fault) ∨
        (t.run = .faulted ∧ t.fault.cause = .outOfBoundsReg ∧ t.fault.ipc = s.pc ∧ t.x = s.x ∧ t.pc = s.pc))

/-- The frame of the instructions that write no register (CMP, PRN, JMP, JEQ, JNE, HLT): every register and every byte of
memory; all flags but for CMP; the output but for PRN; run but for HLT; and run and fault unless an operand faulted. -/
def Obligations.NonWritersFrame : Prop :=
  ∀ (s t : State) (a b : Byte), ∀ i ∈ [Instr.cmp a b, .prn a, .jmp a, .jeq a, .jne a, .hlt], exec i s = .next t →
    t.x = s.x ∧ (∀ d : Nat, readByte t.mem d = readByte s.mem d) ∧
    (i ≠ .cmp a b → t.fl = s.fl) ∧ (i ≠ .prn a → t.out = s.out) ∧
    ((t.run = s.run ∧ t.fault = s.fault) ∨
      (i = .hlt ∧ t.run = .halted ∧ t.fault = s.fault) ∨
      (t.run = .faulted ∧ t.fault.cause = .outOfBoundsReg ∧ t.fault.ipc = s.pc ∧ t.pc = s.pc ∧ t.fl = s.fl ∧
        t.out = s.out))

/-- The frame of the storing instructions (PUSH, CALL), which also move the stack pointer: every register but `x[7]`, all
flags, the output; where `pushAddress` gives the address stored to, every byte but that one, and where it gives none,
every byte; and run and fault unless the instruction faulted. -/
def Obligations.StackStoreFrame : Prop :=
  ∀ (s t : State) (a : Byte), ∀ i ∈ [Instr.push a, .call a], exec i s = .next t →
    (∀ r : Fin 8, r ≠ 7 → t.x[r] = s.x[r]) ∧ t.fl = s.fl ∧ t.out = s.out ∧
    (∀ slot : Byte, pushAddress s = .ok slot → ∀ d : Nat, d ≠ slot.toNat → readByte t.mem d = readByte s.mem d) ∧
    (∀ e : Raised, pushAddress s = .error e → ∀ d : Nat, readByte t.mem d = readByte s.mem d) ∧
    ((t.run = s.run ∧ t.fault = s.fault) ∨
      (t.run = .faulted ∧ t.fault.ipc = s.pc ∧ t.x = s.x ∧ t.mem = s.mem ∧ t.pc = s.pc))

/-- The frame of the popping instructions (POP, RET), which also move the stack pointer: every register but `x[7]` and
POP's destination, all flags, the output, every byte of memory; and run and fault unless the instruction faulted. -/
def Obligations.StackLoadFrame : Prop :=
  ∀ (s t : State) (a : Byte), ∀ i ∈ [Instr.pop a, .ret], exec i s = .next t →
    (∀ r : Fin 8, r ≠ 7 → (i = .pop a → a.toNat ≠ r.val) → t.x[r] = s.x[r]) ∧ t.fl = s.fl ∧ t.out = s.out ∧
    (∀ d : Nat, readByte t.mem d = readByte s.mem d) ∧
    ((t.run = s.run ∧ t.fault = s.fault) ∨
      (t.run = .faulted ∧ t.fault.ipc = s.pc ∧ t.x = s.x ∧ t.pc = s.pc))

/-! ### Whole-machine rules -/

/-- Every step keeps the invariant (10_state.md section 10), from every state that meets it, under every configuration; the
machine's own step among them. -/
def Obligations.EveryStepKeepsInvariant : Prop :=
  (∀ (c : Config) (s t : State), Inv c s → stepWith c s = .next t → Inv c t) ∧
  ∀ s t : State, Inv defaultConfig s → step s = .next t → Inv defaultConfig t

/-- The flags are sticky (70_reset_and_hazards.md R181): a step that changes `fl` executed a CMP, whose registers alone
decide the new value, by the order of unsigned bytes (D24; log entry 15); no instruction but CMP writes `fl`, CALL, RET
and the ALU among them; and with `fl` zero, as before any CMP (the reset value is D7; log entry 5), JEQ falls through
and JNE jumps. -/
def Obligations.FlagsChangeOnlyAtCompare : Prop :=
  State.reset.fl = 0x00#8 ∧
  (∀ (c : Config) (s t : State), stepWith c s = .next t → t.fl ≠ s.fl →
    ∃ (a b : Byte) (ra rb : Fin 8), decode c (bytesAtPc s) = .ok (.cmp a b) ∧ a.toNat = ra.val ∧ b.toNat = rb.val ∧
      t.fl = (if s.x[ra].toNat = s.x[rb].toNat then 0x01#8
        else if s.x[ra].toNat > s.x[rb].toNat then 0x02#8 else 0x04#8)) ∧
  (∀ (i : Instr) (s t : State), i.opcode ≠ .cmp → exec i s = .next t → t.fl = s.fl) ∧
  (∀ (s : State) (a : Byte) (ra : Fin 8), a.toNat = ra.val → s.fl = 0x00#8 →
    exec (.jeq a) s = .next { s with pc := s.pc + 2 } ∧
    exec (.jne a) s = .next { s with pc := s.x[ra].toNat })

/-- The output log grows only at its end and only when a PRN executes, by the register's raw byte
(10_state.md section 7; that the log holds bytes and not text is D18, log entry 12). -/
def Obligations.OutputGrowsOnlyByPrn : Prop :=
  ∀ (c : Config) (s t : State), stepWith c s = .next t →
    t.out = s.out ∨
    ∃ (a : Byte) (ra : Fin 8), decode c (bytesAtPc s) = .ok (.prn a) ∧ a.toNat = ra.val ∧ t.out = s.out ++ [s.x[ra]]

/-- Memory changes only when a PUSH or CALL executes, and then only at the cell below the stack pointer (10_state.md section
6, 43_stack.md section 1), never with the pointer at 0, where they fault instead of wrapping to cell 255 (D10; log
entry 10). -/
def Obligations.MemoryChangesOnlyByPushAndCall : Prop :=
  ∀ (c : Config) (s t : State) (d : Nat), stepWith c s = .next t → readByte t.mem d ≠ readByte s.mem d →
    s.x[(7 : Fin 8)] ≠ 0x00#8 ∧ d = (s.x[(7 : Fin 8)] - 1).toNat ∧
    ∃ a : Byte, decode c (bytesAtPc s) = .ok (.push a) ∨ decode c (bytesAtPc s) = .ok (.call a)

/-- A running machine halts exactly where an HLT executes (40_cycle_dispatch.md section 1: "Running→Halted only via hlt"), which
is at a pc up to 253: an HLT byte at 254 or 255 faults in fetch (D9; log entry 10). -/
def Obligations.HaltedOnlyByHlt : Prop :=
  ∀ (c : Config) (s t : State), s.run = .running → stepWith c s = .next t →
    (t.run = .halted ↔ s.pc ≤ 253 ∧ decode c (bytesAtPc s) = .ok .hlt)

/-- No instruction reads `fl.G` or `fl.L` (10_state.md section 4): two states that differ only in flag bits other than E do
the same, and differ after it at most in `fl`. -/
def Obligations.GreaterAndLessAreNeverRead : Prop :=
  ∀ (i : Instr) (s t : State) (f : Byte), f.getLsbD 0 = s.fl.getLsbD 0 → exec i s = .next t →
    ∃ g : Byte, (g = t.fl ∨ g = f) ∧ exec i { s with fl := f } = .next { t with fl := g }

/-- No instruction reads the output log, `run` or the fault record (10_state.md sections 5 and 7): with other values of
them an instruction does the same to the registers, pc, flags and memory, and appends the same to the log; and it does
the same to `run` and the record: it leaves both as they are, or it is HLT and halts both ways, or it faults both ways
with the same record. -/
def Obligations.OutputRunAndFaultAreNeverRead : Prop :=
  ∀ (i : Instr) (s t : State) (o : List Byte) (r : RunState) (e : FaultRecord), exec i s = .next t →
    ∃ (u : State) (more : List Byte), exec i { s with out := o, run := r, fault := e } = .next u ∧
      u.x = t.x ∧ u.pc = t.pc ∧ u.fl = t.fl ∧ u.mem = t.mem ∧ t.out = s.out ++ more ∧ u.out = o ++ more ∧
      ((i ≠ .hlt ∧ t.run = s.run ∧ u.run = r ∧ t.fault = s.fault ∧ u.fault = e) ∨
        (i = .hlt ∧ t.run = .halted ∧ u.run = .halted ∧ t.fault = s.fault ∧ u.fault = e) ∨
        (t.run = .faulted ∧ u.run = .faulted ∧ u.fault = t.fault))

/-- The stack round trip (43_stack.md section 2 and the source's property S4 of 95_test_vectors.md): push any list of general
registers, let the program change every register but the stack pointer, pop in reverse order: each pushed register and
the pointer have their old values again. -/
def Obligations.PushesThenPopsRestoreRegisters : Prop :=
  ∀ (regs : List (Fin 8)) (s : State), (7 : Fin 8) ∉ regs → regs.length ≤ s.x[(7 : Fin 8)].toNat →
    ∃ t : State, execAll (regs.map fun r => .push (BitVec.ofNat 8 r.val)) s = .next t ∧
      t.x[(7 : Fin 8)].toNat + regs.length = s.x[(7 : Fin 8)].toNat ∧
      (∀ r : Fin 8, r ≠ 7 → t.x[r] = s.x[r]) ∧
      ∀ t' : State, t'.x[(7 : Fin 8)] = t.x[(7 : Fin 8)] → t'.mem = t.mem →
        ∃ u : State, execAll (regs.reverse.map fun r => .pop (BitVec.ofNat 8 r.val)) t' = .next u ∧
          u.x[(7 : Fin 8)] = s.x[(7 : Fin 8)] ∧ (∀ r ∈ regs, u.x[r] = s.x[r]) ∧
          (∀ r : Fin 8, r ≠ 7 → r ∉ regs → u.x[r] = t'.x[r])

/-- Call and return (44_control_flow.md section 2 and the source's property S9 of 95_test_vectors.md): a RET executed with the
stack pointer and the return cell as CALL left them goes to the call site plus 2 with the pointer as before the call. -/
def Obligations.CallThenReturnComesBack : Prop :=
  ∀ (s : State) (a : Byte) (ra : Fin 8), a.toNat = ra.val → s.x[(7 : Fin 8)] ≠ 0x00#8 → s.pc ≤ 253 →
    ∃ t : State, exec (.call a) s = .next t ∧
      ∀ t' : State, t'.x[(7 : Fin 8)] = t.x[(7 : Fin 8)] →
        readByte t'.mem t.x[(7 : Fin 8)].toNat = readByte t.mem t.x[(7 : Fin 8)].toNat →
        ∃ u : State, exec .ret t' = .next u ∧ u.pc = s.pc + 2 ∧ u.x[(7 : Fin 8)] = s.x[(7 : Fin 8)] ∧
          (∀ r : Fin 8, r ≠ 7 → u.x[r] = t'.x[r])
end

