-- ==== Sys2Proof/Laws/Decode.lean ====
section
/-! SUPPORT. The laws of decoding and encoding: what the opcode lookup finds, and what a decoded window is. -/

namespace Sys2Proof

theorem Opcode.mem_all (op : Opcode) : op ∈ Opcode.all := by cases op <;> decide

/-- What a well-formed configuration promises of each opcode byte. -/
theorem Config.wellFormed_bits {c : Config} (h : c.wellFormed = true) (op : Opcode) :
    operandCountField (c.opcodeMap op) = op.operandCount ∧ setsPcBit (c.opcodeMap op) = op.setsPc := by
  simp only [Config.wellFormed, Bool.and_eq_true, List.all_eq_true, decide_eq_true_eq] at h
  exact h.2 op op.mem_all

/-- A well-formed configuration gives two instructions two bytes. -/
theorem Config.wellFormed_injective {c : Config} (h : c.wellFormed = true) {o p : Opcode}
    (e : c.opcodeMap o = c.opcodeMap p) : o = p := by
  simp only [Config.wellFormed, Bool.and_eq_true, decide_eq_true_eq] at h
  exact List.inj_on_of_nodup_map h.1 o.mem_all p.mem_all e

/-- The default opcode map is one-to-one and keeps the bits of 30_encoding.md R67. -/
theorem defaultConfig_wellFormed : defaultConfig.wellFormed = true := by decide

/-- What the lookup finds has the byte looked up. -/
theorem opcodeMap_of_opcodeOf {c : Config} {ir : Byte} {op : Opcode} (h : opcodeOf c ir = some op) :
    c.opcodeMap op = ir := by
  simpa using List.find?_some h

/-- The lookup finds every instruction at its own byte. -/
theorem opcodeOf_opcodeMap {c : Config} (hc : c.wellFormed = true) (op : Opcode) :
    opcodeOf c (c.opcodeMap op) = some op := by
  cases h : opcodeOf c (c.opcodeMap op) with
  | none =>
    have := List.find?_eq_none.1 h op op.mem_all
    simp at this
  | some p => rw [Config.wellFormed_injective hc (opcodeMap_of_opcodeOf h)]

/-- The lookup finds nothing exactly where no instruction has the byte. -/
theorem opcodeOf_eq_none {c : Config} {ir : Byte} : opcodeOf c ir = none ↔ ∀ op, c.opcodeMap op ≠ ir := by
  simp only [opcodeOf, List.find?_eq_none, beq_iff_eq]
  exact ⟨fun h op => h op op.mem_all, fun h op _ => h op⟩

theorem decodeWindow_eq_ok {c : Config} {w : Window} {i : Instr} :
    decodeWindow c w = .ok i ↔ ∃ op, opcodeOf c w.ir = some op ∧ instrOf op w.opa w.opb = i := by
  unfold decodeWindow
  split
  · rename_i op h
    simp [h]
  · rename_i h
    simp [h]

theorem decodeWindow_eq_error {c : Config} {w : Window} {e : DecodeError} :
    decodeWindow c w = .error e ↔ opcodeOf c w.ir = none ∧ .unknownOpcode w.ir = e := by
  unfold decodeWindow
  split
  · rename_i op h
    simp [h]
  · rename_i h
    simp [h]

@[simp] theorem opcode_instrOf (op : Opcode) (opa opb : Byte) : (instrOf op opa opb).opcode = op := by
  cases op <;> rfl

/-- An instruction's identity and its operand bytes say all of it, whatever bytes follow. -/
theorem instrOf_operands (i : Instr) (p q : Byte) :
    ∃ opa opb rest, i.operands ++ [p, q] = opa :: opb :: rest ∧ instrOf i.opcode opa opb = i := by
  cases i <;> exact ⟨_, _, _, rfl, rfl⟩

theorem length_operands (i : Instr) : i.operands.length = i.opcode.operandCount := by
  cases i <;> rfl

theorem length_encode (c : Config) (i : Instr) : (encode c i).length = 1 + i.opcode.operandCount := by
  simp [encode, length_operands, Nat.add_comm]

/-- The operand bytes of what a window decodes to are the first bytes after the opcode. -/
theorem operands_instrOf (op : Opcode) (opa opb : Byte) :
    (instrOf op opa opb).operands = [opa, opb].take op.operandCount := by
  cases op <;> rfl

end Sys2Proof
end

