-- ==== Sys2Proof/Laws/State.lean ====
section
/-! SUPPORT. One lemma per field of State per update, and what a register read sees after each update. -/

namespace Sys2Proof.Machine

/-! ### `writeReg` -/

@[simp] theorem State.writeReg_x (s : State) (r : Fin 8) (v : Byte) : (s.writeReg r v).x = s.x.set r v := rfl
@[simp] theorem State.writeReg_pc (s : State) (r : Fin 8) (v : Byte) : (s.writeReg r v).pc = s.pc := rfl
@[simp] theorem State.writeReg_fl (s : State) (r : Fin 8) (v : Byte) : (s.writeReg r v).fl = s.fl := rfl
@[simp] theorem State.writeReg_run (s : State) (r : Fin 8) (v : Byte) : (s.writeReg r v).run = s.run := rfl
@[simp] theorem State.writeReg_mem (s : State) (r : Fin 8) (v : Byte) : (s.writeReg r v).mem = s.mem := rfl
@[simp] theorem State.writeReg_out (s : State) (r : Fin 8) (v : Byte) : (s.writeReg r v).out = s.out := rfl
@[simp] theorem State.writeReg_fault (s : State) (r : Fin 8) (v : Byte) : (s.writeReg r v).fault = s.fault := rfl

/-! ### `setPc` -/

@[simp] theorem State.setPc_x (s : State) (p : Nat) : (s.setPc p).x = s.x := rfl
@[simp] theorem State.setPc_pc (s : State) (p : Nat) : (s.setPc p).pc = p := rfl
@[simp] theorem State.setPc_fl (s : State) (p : Nat) : (s.setPc p).fl = s.fl := rfl
@[simp] theorem State.setPc_run (s : State) (p : Nat) : (s.setPc p).run = s.run := rfl
@[simp] theorem State.setPc_mem (s : State) (p : Nat) : (s.setPc p).mem = s.mem := rfl
@[simp] theorem State.setPc_out (s : State) (p : Nat) : (s.setPc p).out = s.out := rfl
@[simp] theorem State.setPc_fault (s : State) (p : Nat) : (s.setPc p).fault = s.fault := rfl

/-! ### `setFl` -/

@[simp] theorem State.setFl_x (s : State) (v : Byte) : (s.setFl v).x = s.x := rfl
@[simp] theorem State.setFl_pc (s : State) (v : Byte) : (s.setFl v).pc = s.pc := rfl
@[simp] theorem State.setFl_fl (s : State) (v : Byte) : (s.setFl v).fl = v := rfl
@[simp] theorem State.setFl_run (s : State) (v : Byte) : (s.setFl v).run = s.run := rfl
@[simp] theorem State.setFl_mem (s : State) (v : Byte) : (s.setFl v).mem = s.mem := rfl
@[simp] theorem State.setFl_out (s : State) (v : Byte) : (s.setFl v).out = s.out := rfl
@[simp] theorem State.setFl_fault (s : State) (v : Byte) : (s.setFl v).fault = s.fault := rfl

/-! ### `halt` -/

@[simp] theorem State.halt_x (s : State) : (s.halt).x = s.x := rfl
@[simp] theorem State.halt_pc (s : State) : (s.halt).pc = s.pc := rfl
@[simp] theorem State.halt_fl (s : State) : (s.halt).fl = s.fl := rfl
@[simp] theorem State.halt_run (s : State) : (s.halt).run = .halted := rfl
@[simp] theorem State.halt_mem (s : State) : (s.halt).mem = s.mem := rfl
@[simp] theorem State.halt_out (s : State) : (s.halt).out = s.out := rfl
@[simp] theorem State.halt_fault (s : State) : (s.halt).fault = s.fault := rfl

/-! ### `emit` -/

@[simp] theorem State.emit_x (s : State) (v : Byte) : (s.emit v).x = s.x := rfl
@[simp] theorem State.emit_pc (s : State) (v : Byte) : (s.emit v).pc = s.pc := rfl
@[simp] theorem State.emit_fl (s : State) (v : Byte) : (s.emit v).fl = s.fl := rfl
@[simp] theorem State.emit_run (s : State) (v : Byte) : (s.emit v).run = s.run := rfl
@[simp] theorem State.emit_mem (s : State) (v : Byte) : (s.emit v).mem = s.mem := rfl
@[simp] theorem State.emit_out (s : State) (v : Byte) : (s.emit v).out = s.out ++ [v] := rfl
@[simp] theorem State.emit_fault (s : State) (v : Byte) : (s.emit v).fault = s.fault := rfl

/-! ### `setMem` -/

@[simp] theorem State.setMem_x (s : State) (a : Nat) (v : Byte) : (s.setMem a v).x = s.x := rfl
@[simp] theorem State.setMem_pc (s : State) (a : Nat) (v : Byte) : (s.setMem a v).pc = s.pc := rfl
@[simp] theorem State.setMem_fl (s : State) (a : Nat) (v : Byte) : (s.setMem a v).fl = s.fl := rfl
@[simp] theorem State.setMem_run (s : State) (a : Nat) (v : Byte) : (s.setMem a v).run = s.run := rfl
@[simp] theorem State.setMem_mem (s : State) (a : Nat) (v : Byte) : (s.setMem a v).mem = writeByte s.mem a v := rfl
@[simp] theorem State.setMem_out (s : State) (a : Nat) (v : Byte) : (s.setMem a v).out = s.out := rfl
@[simp] theorem State.setMem_fault (s : State) (a : Nat) (v : Byte) : (s.setMem a v).fault = s.fault := rfl

/-! ### `raise` -/

@[simp] theorem raise_x (s : State) (r : Raised) : (raise s r).x = s.x := rfl
@[simp] theorem raise_pc (s : State) (r : Raised) : (raise s r).pc = s.pc := rfl
@[simp] theorem raise_fl (s : State) (r : Raised) : (raise s r).fl = s.fl := rfl
@[simp] theorem raise_run (s : State) (r : Raised) : (raise s r).run = .faulted := rfl
@[simp] theorem raise_mem (s : State) (r : Raised) : (raise s r).mem = s.mem := rfl
@[simp] theorem raise_out (s : State) (r : Raised) : (raise s r).out = s.out := rfl
@[simp] theorem raise_fault (s : State) (r : Raised) : (raise s r).fault = ⟨r.cause, r.index, s.pc⟩ := rfl
/-! ### `advance` -/

@[simp] theorem advance_x (n : Nat) (b : Bool) (s : State) : (advance n b s).x = s.x := by cases b <;> rfl
@[simp] theorem advance_fl (n : Nat) (b : Bool) (s : State) : (advance n b s).fl = s.fl := by cases b <;> rfl
@[simp] theorem advance_run (n : Nat) (b : Bool) (s : State) : (advance n b s).run = s.run := by cases b <;> rfl
@[simp] theorem advance_mem (n : Nat) (b : Bool) (s : State) : (advance n b s).mem = s.mem := by cases b <;> rfl
@[simp] theorem advance_out (n : Nat) (b : Bool) (s : State) : (advance n b s).out = s.out := by cases b <;> rfl
@[simp] theorem advance_fault (n : Nat) (b : Bool) (s : State) : (advance n b s).fault = s.fault := by cases b <;> rfl

theorem advance_setsPc (n : Nat) (s : State) : advance n true s = s := rfl

theorem advance_pc (n : Nat) (s : State) : advance n false s = s.setPc (s.pc + 1 + n) := rfl

/-! ### Register reads -/

theorem State.sp_eq (s : State) : s.sp = s.x[(7 : Fin 8)] := rfl

theorem State.readReg_eq (s : State) (r : Fin 8) : s.readReg r = s.x[r] := rfl

@[simp] theorem State.readReg_writeReg_same (s : State) (r : Fin 8) (v : Byte) :
    (s.writeReg r v).readReg r = v := by
  simp [State.readReg]

theorem State.readReg_writeReg_other (s : State) {r q : Fin 8} (v : Byte) (h : q ≠ r) :
    (s.writeReg r v).readReg q = s.readReg q := by
  simp only [State.readReg, State.writeReg_x, Fin.getElem_fin]
  exact Vector.getElem_set_ne r.isLt q.isLt (fun e => h (Fin.ext e.symm))

theorem State.readReg_writeReg (s : State) (r q : Fin 8) (v : Byte) :
    (s.writeReg r v).readReg q = if q = r then v else s.readReg q := by
  by_cases h : q = r
  · subst h; simp
  · simp [h, State.readReg_writeReg_other s v h]

/-- A register read sees the register file alone. -/
theorem State.readReg_congr {s t : State} (h : t.x = s.x) (r : Fin 8) : t.readReg r = s.readReg r := by
  simp [State.readReg, h]

@[simp] theorem State.readReg_setPc (s : State) (p : Nat) (r : Fin 8) : (s.setPc p).readReg r = s.readReg r := rfl
@[simp] theorem State.readReg_setFl (s : State) (v : Byte) (r : Fin 8) : (s.setFl v).readReg r = s.readReg r := rfl
@[simp] theorem State.readReg_halt (s : State) (r : Fin 8) : s.halt.readReg r = s.readReg r := rfl
@[simp] theorem State.readReg_emit (s : State) (v : Byte) (r : Fin 8) : (s.emit v).readReg r = s.readReg r := rfl
@[simp] theorem State.readReg_setMem (s : State) (a : Nat) (v : Byte) (r : Fin 8) :
    (s.setMem a v).readReg r = s.readReg r := rfl
@[simp] theorem State.readReg_raise (s : State) (e : Raised) (r : Fin 8) : (raise s e).readReg r = s.readReg r := rfl
@[simp] theorem State.readReg_advance (n : Nat) (b : Bool) (s : State) (r : Fin 8) :
    (advance n b s).readReg r = s.readReg r := by cases b <;> rfl

@[simp] theorem State.sp_advance (n : Nat) (b : Bool) (s : State) : (advance n b s).sp = s.sp := by cases b <;> rfl
@[simp] theorem State.sp_setMem (s : State) (a : Nat) (v : Byte) : (s.setMem a v).sp = s.sp := rfl
@[simp] theorem State.sp_setPc (s : State) (p : Nat) : (s.setPc p).sp = s.sp := rfl
@[simp] theorem State.sp_writeReg_sp (s : State) (v : Byte) : (s.writeReg spIndex v).sp = v :=
  State.readReg_writeReg_same s spIndex v

end Sys2Proof.Machine
end

