-- ==== Sys2Proof/Laws/Memory.lean ====
section
/-! SUPPORT. The laws of the memory list: read after write, the canonical form is kept, and equal memories are equal
data. -/

namespace Sys2Proof.Machine

/-! ### Read after write -/

theorem readByte_insertCell_same (m : Memory) (a : Nat) (v : Byte) : readByte (insertCell m a v) a = v := by
  induction m with
  | nil => simp [insertCell, readByte]
  | cons cell rest ih =>
    obtain ⟨b, w⟩ := cell
    simp only [insertCell]
    split
    · simp [readByte]
    · split
      · simp [readByte]
      · rename_i hne
        simp [readByte, Ne.symm hne, ih]

theorem readByte_insertCell_other (m : Memory) {a d : Nat} (v : Byte) (h : d ≠ a) :
    readByte (insertCell m a v) d = readByte m d := by
  induction m with
  | nil => simp [insertCell, readByte, Ne.symm h]
  | cons cell rest ih =>
    obtain ⟨b, w⟩ := cell
    simp only [insertCell]
    split
    · simp [readByte, Ne.symm h]
    · split
      · rename_i hab
        subst hab
        simp [readByte, Ne.symm h]
      · simp [readByte, ih]

theorem readByte_eraseCell_same (m : Memory) (a : Nat) : readByte (eraseCell m a) a = unlistedByte := by
  induction m with
  | nil => rfl
  | cons cell rest ih =>
    obtain ⟨b, w⟩ := cell
    by_cases h : b = a
    · simpa [eraseCell, h] using ih
    · simpa [eraseCell, h, readByte] using ih

theorem readByte_eraseCell_other (m : Memory) {a d : Nat} (h : d ≠ a) :
    readByte (eraseCell m a) d = readByte m d := by
  induction m with
  | nil => rfl
  | cons cell rest ih =>
    obtain ⟨b, w⟩ := cell
    by_cases hb : b = a
    · subst hb
      simpa [eraseCell, readByte, Ne.symm h] using ih
    · have := ih
      simp only [eraseCell] at this
      simp [eraseCell, hb, readByte, this]

theorem readByte_writeByte_same (m : Memory) (a : Nat) (v : Byte) : readByte (writeByte m a v) a = v := by
  unfold writeByte
  split
  · rename_i h
    rw [h, readByte_eraseCell_same]
  · exact readByte_insertCell_same m a v

theorem readByte_writeByte_other (m : Memory) {a d : Nat} (v : Byte) (h : d ≠ a) :
    readByte (writeByte m a v) d = readByte m d := by
  unfold writeByte
  split
  · exact readByte_eraseCell_other m h
  · exact readByte_insertCell_other m v h

theorem readByte_writeByte (m : Memory) (a d : Nat) (v : Byte) :
    readByte (writeByte m a v) d = if d = a then v else readByte m d := by
  by_cases h : d = a
  · subst h; simp [readByte_writeByte_same]
  · simp [h, readByte_writeByte_other m v h]

/-! ### The canonical form is kept -/

theorem wfFrom_cons (lo a : Nat) (v : Byte) (rest : Memory) :
    wfFrom lo ((a, v) :: rest) = true ↔ lo ≤ a ∧ a ≤ 255 ∧ v ≠ unlistedByte ∧ wfFrom (a + 1) rest = true := by
  simp [wfFrom, and_assoc]

theorem wfFrom_mono {lo lo' : Nat} {m : Memory} (hle : lo' ≤ lo) (h : wfFrom lo m = true) : wfFrom lo' m = true := by
  cases m with
  | nil => rfl
  | cons cell rest =>
    obtain ⟨a, v⟩ := cell
    rw [wfFrom_cons] at h ⊢
    exact ⟨by omega, h.2⟩

theorem wfFrom_insertCell {lo : Nat} {m : Memory} {a : Nat} {v : Byte} (h : wfFrom lo m = true) (hlo : lo ≤ a)
    (ha : a ≤ 255) (hv : v ≠ unlistedByte) : wfFrom lo (insertCell m a v) = true := by
  induction m generalizing lo with
  | nil => simp [insertCell, hlo, ha, hv, wfFrom]
  | cons cell rest ih =>
    obtain ⟨b, w⟩ := cell
    rw [wfFrom_cons] at h
    obtain ⟨hb, hb255, hw, hrest⟩ := h
    simp only [insertCell]
    split
    · rename_i hab
      exact (wfFrom_cons ..).2 ⟨hlo, ha, hv, (wfFrom_cons ..).2 ⟨hab, hb255, hw, hrest⟩⟩
    · split
      · rename_i hab
        exact (wfFrom_cons ..).2 ⟨hlo, ha, hv, hab ▸ hrest⟩
      · exact (wfFrom_cons ..).2 ⟨hb, hb255, hw, ih hrest (by omega)⟩

theorem wfFrom_eraseCell {lo : Nat} {m : Memory} (a : Nat) (h : wfFrom lo m = true) :
    wfFrom lo (eraseCell m a) = true := by
  induction m generalizing lo with
  | nil => rfl
  | cons cell rest ih =>
    obtain ⟨b, w⟩ := cell
    rw [wfFrom_cons] at h
    obtain ⟨hb, hb255, hw, hrest⟩ := h
    by_cases hba : b = a
    · have : eraseCell ((b, w) :: rest) a = eraseCell rest a := by simp [eraseCell, hba]
      rw [this]
      exact ih (wfFrom_mono (by omega) hrest)
    · have : eraseCell ((b, w) :: rest) a = (b, w) :: eraseCell rest a := by simp [eraseCell, hba]
      rw [this]
      exact (wfFrom_cons ..).2 ⟨hb, hb255, hw, ih hrest⟩

/-- Every write in range keeps the canonical form. -/
theorem wf_writeByte {m : Memory} {a : Nat} (v : Byte) (h : Memory.wf m = true) (ha : a ≤ 255) :
    Memory.wf (writeByte m a v) = true := by
  unfold writeByte
  split
  · exact wfFrom_eraseCell a h
  · rename_i hv
    exact wfFrom_insertCell h (Nat.zero_le a) ha hv

/-- The reset memory is canonical. -/
theorem wf_reset : Memory.wf State.reset.mem = true := rfl

/-! ### Equal memories are equal data -/

theorem readByte_below {lo : Nat} {m : Memory} (h : wfFrom lo m = true) {a : Nat} (ha : a < lo) :
    readByte m a = unlistedByte := by
  induction m generalizing lo with
  | nil => rfl
  | cons cell rest ih =>
    obtain ⟨b, w⟩ := cell
    rw [wfFrom_cons] at h
    have hne : b ≠ a := by omega
    simpa [readByte, hne] using ih h.2.2.2 (by omega)

/-- Every cell outside 0 to 255 of a canonical memory is unlisted. -/
theorem readByte_above {lo : Nat} {m : Memory} (h : wfFrom lo m = true) {a : Nat} (ha : 255 < a) :
    readByte m a = unlistedByte := by
  induction m generalizing lo with
  | nil => rfl
  | cons cell rest ih =>
    obtain ⟨b, w⟩ := cell
    rw [wfFrom_cons] at h
    have hne : b ≠ a := by omega
    simpa [readByte, hne] using ih h.2.2.2

theorem wfFrom_ext {lo : Nat} {m n : Memory} (hm : wfFrom lo m = true) (hn : wfFrom lo n = true)
    (h : ∀ a, readByte m a = readByte n a) : m = n := by
  induction m generalizing lo n with
  | nil =>
    cases n with
    | nil => rfl
    | cons cell rest =>
      obtain ⟨b, w⟩ := cell
      rw [wfFrom_cons] at hn
      exact absurd (h b).symm (by simpa [readByte] using hn.2.2.1)
  | cons cell rest ih =>
    obtain ⟨b, w⟩ := cell
    rw [wfFrom_cons] at hm
    cases n with
    | nil => exact absurd (h b) (by simpa [readByte] using hm.2.2.1)
    | cons cell' rest' =>
      obtain ⟨b', w'⟩ := cell'
      rw [wfFrom_cons] at hn
      have hbb : b = b' := by
        rcases Nat.lt_trichotomy b b' with hlt | heq | hgt
        · have hr := readByte_below hn.2.2.2 (a := b) (by omega)
          have := h b
          simp [readByte, show b' ≠ b by omega, hr] at this
          exact absurd this hm.2.2.1
        · exact heq
        · have hr := readByte_below hm.2.2.2 (a := b') (by omega)
          have := h b'
          simp [readByte, show b ≠ b' by omega, hr] at this
          exact absurd this.symm hn.2.2.1
      subst hbb
      have hww : w = w' := by simpa [readByte] using h b
      subst hww
      have hrest : rest = rest' := by
        refine ih hm.2.2.2 hn.2.2.2 fun a => ?_
        by_cases hab : b = a
        · subst hab
          rw [readByte_below hm.2.2.2 (by omega), readByte_below hn.2.2.2 (by omega)]
        · simpa [readByte, hab] using h a
      rw [hrest]

/-- Two canonical memories that read alike at every address are the same list. -/
theorem Memory.ext_of_wf {m n : Memory} (hm : Memory.wf m = true) (hn : Memory.wf n = true)
    (h : ∀ a, readByte m a = readByte n a) : m = n :=
  wfFrom_ext hm hn h

end Sys2Proof.Machine
end

