-- ==== Sys2Proof/Laws/Ops.lean ====
section
/-! SUPPORT. For each shared operation, once, everything it can do. -/

namespace Sys2Proof.Machine

/-! ### Register operands -/

theorem regIdx_eq_ok {a : Byte} {r : Fin 8} : regIdx a = .ok r ↔ a.toNat = r.val := by
  unfold regIdx
  split
  · simp [Fin.ext_iff]
  · simp
    omega

theorem regIdx_eq_error {a : Byte} {e : Raised} :
    regIdx a = .error e ↔ 7 < a.toNat ∧ e = ⟨.outOfBoundsReg, a.toNat⟩ := by
  unfold regIdx
  split
  · simp
    omega
  · simp [eq_comm]
    omega

/-- An operand byte names a register or is out of bounds. -/
theorem regIdx_cases (a : Byte) : (∃ r : Fin 8, a.toNat = r.val) ∨ 7 < a.toNat := by
  by_cases h : a.toNat < 8
  · exact .inl ⟨⟨a.toNat, h⟩, rfl⟩
  · exact .inr (by omega)

theorem withReg_eq_ok {a : Byte} {act : Fin 8 → State → Checked State} {s u : State} :
    withReg a act s = .ok u ↔ ∃ ra : Fin 8, a.toNat = ra.val ∧ act ra s = .ok u := by
  unfold withReg
  cases h : regIdx a with
  | error e =>
    have := (regIdx_eq_error.1 h).1
    simp only [bind, Except.bind, reduceCtorEq, false_iff, not_exists, not_and]
    intro ra hra
    omega
  | ok r =>
    have hr := regIdx_eq_ok.1 h
    simp only [bind, Except.bind]
    constructor
    · exact fun hact => ⟨r, hr, hact⟩
    · rintro ⟨ra, hra, hact⟩
      rwa [show r = ra from Fin.ext (by omega)]

theorem withReg_eq_error {a : Byte} {act : Fin 8 → State → Checked State} {s : State} {e : Raised} :
    withReg a act s = .error e ↔
      (7 < a.toNat ∧ e = ⟨.outOfBoundsReg, a.toNat⟩) ∨ ∃ ra : Fin 8, a.toNat = ra.val ∧ act ra s = .error e := by
  unfold withReg
  cases h : regIdx a with
  | error e' =>
    obtain ⟨hlt, rfl⟩ := regIdx_eq_error.1 h
    simp only [bind, Except.bind, Except.error.injEq]
    constructor
    · exact fun he => .inl ⟨hlt, he.symm⟩
    · rintro (⟨-, he⟩ | ⟨ra, hra, -⟩)
      · exact he.symm
      · omega
  | ok r =>
    have hr := regIdx_eq_ok.1 h
    simp only [bind, Except.bind]
    constructor
    · exact fun hact => .inr ⟨r, hr, hact⟩
    · rintro (⟨hlt, -⟩ | ⟨ra, hra, hact⟩)
      · omega
      · rwa [show r = ra from Fin.ext (by omega)]

/-- Format RR is format R twice, operand `a` first. -/
theorem withRegs_eq (a b : Byte) (act : Fin 8 → Fin 8 → State → Checked State) (s : State) :
    withRegs a b act s = withReg a (fun ra => withReg b (act ra)) s := rfl

theorem withRegs_eq_ok {a b : Byte} {act : Fin 8 → Fin 8 → State → Checked State} {s u : State} :
    withRegs a b act s = .ok u ↔
      ∃ ra rb : Fin 8, a.toNat = ra.val ∧ b.toNat = rb.val ∧ act ra rb s = .ok u := by
  rw [withRegs_eq, withReg_eq_ok]
  simp only [withReg_eq_ok]
  constructor
  · rintro ⟨ra, ha, rb, hb, h⟩
    exact ⟨ra, rb, ha, hb, h⟩
  · rintro ⟨ra, rb, ha, hb, h⟩
    exact ⟨ra, ha, rb, hb, h⟩

theorem withRegs_eq_error {a b : Byte} {act : Fin 8 → Fin 8 → State → Checked State} {s : State} {e : Raised} :
    withRegs a b act s = .error e ↔
      (7 < a.toNat ∧ e = ⟨.outOfBoundsReg, a.toNat⟩) ∨
      (a.toNat ≤ 7 ∧ 7 < b.toNat ∧ e = ⟨.outOfBoundsReg, b.toNat⟩) ∨
      ∃ ra rb : Fin 8, a.toNat = ra.val ∧ b.toNat = rb.val ∧ act ra rb s = .error e := by
  rw [withRegs_eq, withReg_eq_error]
  simp only [withReg_eq_error]
  constructor
  · rintro (h | ⟨ra, ha, hb | ⟨rb, hb, h⟩⟩)
    · exact .inl h
    · exact .inr (.inl ⟨by omega, hb⟩)
    · exact .inr (.inr ⟨ra, rb, ha, hb, h⟩)
  · rintro (h | ⟨ha, hb⟩ | ⟨ra, rb, ha, hb, h⟩)
    · exact .inl h
    · exact .inr ⟨⟨a.toNat, by omega⟩, rfl, .inl hb⟩
    · exact .inr ⟨ra, ha, .inr ⟨rb, hb, h⟩⟩

/-- Format R with an operand that names a register. -/
theorem withReg_of_names {a : Byte} {ra : Fin 8} (h : a.toNat = ra.val) (act : Fin 8 → State → Checked State)
    (s : State) : withReg a act s = act ra s := by
  simp [withReg, regIdx_eq_ok.2 h, bind, Except.bind]

/-- Format R with an operand above 7. -/
theorem withReg_of_above {a : Byte} (h : 7 < a.toNat) (act : Fin 8 → State → Checked State) (s : State) :
    withReg a act s = .error ⟨.outOfBoundsReg, a.toNat⟩ :=
  withReg_eq_error.2 (.inl ⟨h, rfl⟩)

/-- Format RR with operands that name registers. -/
theorem withRegs_of_names {a b : Byte} {ra rb : Fin 8} (ha : a.toNat = ra.val) (hb : b.toNat = rb.val)
    (act : Fin 8 → Fin 8 → State → Checked State) (s : State) : withRegs a b act s = act ra rb s := by
  rw [withRegs_eq, withReg_of_names ha, withReg_of_names hb]

/-- Format RR with operand `a` above 7, whatever `b` is. -/
theorem withRegs_of_above_a {a b : Byte} (h : 7 < a.toNat) (act : Fin 8 → Fin 8 → State → Checked State) (s : State) :
    withRegs a b act s = .error ⟨.outOfBoundsReg, a.toNat⟩ :=
  withRegs_eq_error.2 (.inl ⟨h, rfl⟩)

/-- Format RR with only operand `b` above 7. -/
theorem withRegs_of_above_b {a b : Byte} (ha : a.toNat ≤ 7) (hb : 7 < b.toNat)
    (act : Fin 8 → Fin 8 → State → Checked State) (s : State) :
    withRegs a b act s = .error ⟨.outOfBoundsReg, b.toNat⟩ :=
  withRegs_eq_error.2 (.inr (.inl ⟨ha, hb, rfl⟩))

/-! ### Checked memory accesses -/

theorem memRead_eq_ok {s : State} {addr : Int} {v : Byte} :
    memRead s addr = .ok v ↔ 0 ≤ addr ∧ addr ≤ 255 ∧ v = readByte s.mem addr.toNat := by
  unfold memRead
  split
  · simp
    omega
  · rename_i h
    simp only [Except.ok.injEq]
    exact ⟨fun e => ⟨by omega, by omega, e.symm⟩, fun e => e.2.2.symm⟩

theorem memRead_eq_error {s : State} {addr : Int} {e : Raised} :
    memRead s addr = .error e ↔ (addr < 0 ∨ 255 < addr) ∧ e = ⟨.outOfBoundsMem, addr⟩ := by
  unfold memRead
  split
  · rename_i h
    simp [eq_comm]
    omega
  · simp
    omega

theorem memWrite_eq_ok {s u : State} {addr : Int} {v : Byte} :
    memWrite s addr v = .ok u ↔ 0 ≤ addr ∧ addr ≤ 255 ∧ u = s.setMem addr.toNat v := by
  unfold memWrite
  split
  · simp
    omega
  · rename_i h
    simp only [Except.ok.injEq]
    exact ⟨fun e => ⟨by omega, by omega, e.symm⟩, fun e => e.2.2.symm⟩

theorem memWrite_eq_error {s : State} {addr : Int} {v : Byte} {e : Raised} :
    memWrite s addr v = .error e ↔ (addr < 0 ∨ 255 < addr) ∧ e = ⟨.outOfBoundsMem, addr⟩ := by
  unfold memWrite
  split
  · rename_i h
    simp [eq_comm]
    omega
  · simp
    omega

/-- A read at a byte address is in range. -/
theorem memRead_byte (s : State) (a : Byte) : memRead s (a.toNat : Int) = .ok (readByte s.mem a.toNat) :=
  memRead_eq_ok.2 ⟨by omega, by have := a.isLt; omega, by simp⟩

/-- A write at a byte address is in range. -/
theorem memWrite_byte (s : State) (a v : Byte) : memWrite s (a.toNat : Int) v = .ok (s.setMem a.toNat v) :=
  memWrite_eq_ok.2 ⟨by omega, by have := a.isLt; omega, by simp⟩

/-! ### The stack -/

theorem pushAddress_eq_ok {s : State} {d : Byte} : pushAddress s = .ok d ↔ s.sp ≠ 0x00#8 ∧ d = s.sp - 1 := by
  unfold pushAddress
  split
  · rename_i h
    simp [h]
  · rename_i h
    simp [h, eq_comm]

theorem pushAddress_eq_error {s : State} {e : Raised} :
    pushAddress s = .error e ↔ s.sp = 0x00#8 ∧ e = ⟨.outOfBoundsMem, -1⟩ := by
  unfold pushAddress
  split
  · rename_i h
    simp [h, eq_comm]
  · rename_i h
    simp [h]

theorem pushWith_eq_ok {s u : State} {value : State → Byte} :
    pushWith s value = .ok u ↔ s.sp ≠ 0x00#8 ∧
      u = (s.writeReg spIndex (s.sp - 1)).setMem (s.sp - 1).toNat (value (s.writeReg spIndex (s.sp - 1))) := by
  unfold pushWith
  cases h : pushAddress s with
  | error e => simp [bind, Except.bind, (pushAddress_eq_error.1 h).1]
  | ok d =>
    obtain ⟨hne, rfl⟩ := pushAddress_eq_ok.1 h
    simp only [bind, Except.bind, memWrite_byte, State.sp_writeReg_sp, Except.ok.injEq]
    exact ⟨fun e => ⟨hne, e.symm⟩, fun e => e.2.symm⟩

theorem pushWith_eq_error {s : State} {value : State → Byte} {e : Raised} :
    pushWith s value = .error e ↔ s.sp = 0x00#8 ∧ e = ⟨.outOfBoundsMem, -1⟩ := by
  unfold pushWith
  cases h : pushAddress s with
  | error e' =>
    obtain ⟨hz, rfl⟩ := pushAddress_eq_error.1 h
    simp [bind, Except.bind, hz, eq_comm]
  | ok d =>
    obtain ⟨hne, rfl⟩ := pushAddress_eq_ok.1 h
    simp only [bind, Except.bind, memWrite_byte, State.sp_writeReg_sp, reduceCtorEq, hne, false_and]

theorem incrementSp_eq_ok {s u : State} :
    incrementSp s = .ok u ↔ s.sp.toNat < 255 ∧ u = s.writeReg spIndex (s.sp + 1) := by
  unfold incrementSp
  split
  · simp
    omega
  · simp [eq_comm]
    omega

theorem incrementSp_eq_error {s : State} {e : Raised} :
    incrementSp s = .error e ↔ s.sp.toNat = 255 ∧ e = ⟨.outOfBoundsMem, 256⟩ := by
  have := s.sp.isLt
  unfold incrementSp
  split
  · simp [eq_comm]
    omega
  · simp
    omega

theorem popInto_eq (ra : Fin 8) (s : State) :
    popInto ra s = incrementSp (s.writeReg ra (readByte s.mem s.sp.toNat)) := by
  simp [popInto, memRead_byte, bind, Except.bind]

theorem callTo_eq_ok {ra : Fin 8} {s u : State} :
    callTo ra s = .ok u ↔ ∃ v, pushWith s returnAddress = .ok v ∧ u = v.jumpTo ra := by
  unfold callTo
  cases pushWith s returnAddress <;> simp [bind, Except.bind, pure, Except.pure, eq_comm]

theorem callTo_eq_error {ra : Fin 8} {s : State} {e : Raised} :
    callTo ra s = .error e ↔ pushWith s returnAddress = .error e := by
  unfold callTo
  cases pushWith s returnAddress <;> simp [bind, Except.bind, pure, Except.pure]

theorem returnFrom_eq (s : State) :
    returnFrom s = (incrementSp s).map fun s1 => s1.setPc (readByte s.mem s.sp.toNat).toNat := by
  simp only [returnFrom, memRead_byte, bind, Except.bind]
  cases incrementSp s <;> rfl

theorem returnFrom_eq_ok {s u : State} :
    returnFrom s = .ok u ↔ s.sp.toNat < 255 ∧
      u = (s.writeReg spIndex (s.sp + 1)).setPc (readByte s.mem s.sp.toNat).toNat := by
  rw [returnFrom_eq]
  cases h : incrementSp s with
  | error e =>
    have := (incrementSp_eq_error.1 h).1
    simp [Except.map]
    omega
  | ok v =>
    obtain ⟨hlt, rfl⟩ := incrementSp_eq_ok.1 h
    simp [Except.map, hlt, eq_comm]

theorem returnFrom_eq_error {s : State} {e : Raised} :
    returnFrom s = .error e ↔ s.sp.toNat = 255 ∧ e = ⟨.outOfBoundsMem, 256⟩ := by
  rw [returnFrom_eq, ← incrementSp_eq_error]
  cases incrementSp s <;> simp [Except.map]

/-! ### Fetch -/

/-- A fetch succeeds exactly up to address 253 and gives the three bytes at the pc. -/
theorem fetch_eq_ok {s : State} {w : Window} :
    fetch s = .ok w ↔ s.pc ≤ 253 ∧
      w = ⟨readByte s.mem s.pc, readByte s.mem (s.pc + 1), readByte s.mem (s.pc + 2)⟩ := by
  unfold fetch
  by_cases h : s.pc ≤ 253
  · have h0 : memRead s s.pc = .ok (readByte s.mem s.pc) := memRead_eq_ok.2 ⟨by omega, by omega, by simp⟩
    have h1 : memRead s (s.pc + 1) = .ok (readByte s.mem (s.pc + 1)) :=
      memRead_eq_ok.2 ⟨by omega, by omega, by congr 1⟩
    have h2 : memRead s (s.pc + 2) = .ok (readByte s.mem (s.pc + 2)) :=
      memRead_eq_ok.2 ⟨by omega, by omega, by congr 1⟩
    simp [h0, h1, h2, bind, Except.bind, pure, Except.pure, h, eq_comm]
  · have h2 : memRead s (s.pc + 2) = .error ⟨.outOfBoundsMem, s.pc + 2⟩ :=
      memRead_eq_error.2 ⟨by omega, rfl⟩
    cases memRead s s.pc <;> cases memRead s (s.pc + 1) <;> simp [h2, bind, Except.bind, h]

/-- A fetch raises exactly from address 254 on, with the lowest address out of range. -/
theorem fetch_eq_error {s : State} {e : Raised} :
    fetch s = .error e ↔ 254 ≤ s.pc ∧ e = ⟨.outOfBoundsMem, max (s.pc : Int) 256⟩ := by
  by_cases h : s.pc ≤ 253
  · rw [fetch_eq_ok.2 ⟨h, rfl⟩]
    simp
    omega
  · suffices hf : fetch s = .error ⟨.outOfBoundsMem, max (s.pc : Int) 256⟩ by
      rw [hf]
      simp [eq_comm]
      omega
    unfold fetch
    by_cases h0 : 255 < s.pc
    · rw [memRead_eq_error.2 ⟨.inr (by omega), rfl⟩]
      simp [bind, Except.bind]
      omega
    · rw [memRead_eq_ok.2 ⟨by omega, by omega, rfl⟩]
      by_cases h1 : s.pc = 255
      · rw [memRead_eq_error.2 ⟨.inr (by omega), rfl⟩]
        simp [bind, Except.bind, h1]
      · have h254 : s.pc = 254 := by omega
        have e1 : memRead s ((s.pc : Int) + 1) = .ok (readByte s.mem ((s.pc : Int) + 1).toNat) :=
          memRead_eq_ok.2 ⟨by omega, by omega, rfl⟩
        have e2 : memRead s ((s.pc : Int) + 2) = .error ⟨.outOfBoundsMem, (s.pc : Int) + 2⟩ :=
          memRead_eq_error.2 ⟨.inr (by omega), rfl⟩
        simp only [e1, e2, bind, Except.bind]
        simp [h254]

/-! ### The cycle around a handler -/

theorem runHandler_of_ok {op : Opcode} {handler : State → Checked State} {s u : State}
    (h : handler (advance op.operandCount op.setsPc s) = .ok u) : runHandler op handler s = .next u := by
  simp [runHandler, h]

theorem runHandler_of_error {op : Opcode} {handler : State → Checked State} {s : State} {e : Raised}
    (h : handler (advance op.operandCount op.setsPc s) = .error e) :
    runHandler op handler s = .next (raise s e) := by
  simp [runHandler, h]

/-- A handler either completes or raises, and either way there is a next state. -/
theorem runHandler_eq_next {op : Opcode} {handler : State → Checked State} {s t : State} :
    runHandler op handler s = .next t ↔
      handler (advance op.operandCount op.setsPc s) = .ok t ∨
      ∃ e, handler (advance op.operandCount op.setsPc s) = .error e ∧ t = raise s e := by
  unfold runHandler
  cases handler (advance op.operandCount op.setsPc s) <;> simp [eq_comm]

theorem runHandler_answers_next (op : Opcode) (handler : State → Checked State) (s : State) :
    ∃ t, runHandler op handler s = .next t := by
  unfold runHandler
  split <;> exact ⟨_, rfl⟩

end Sys2Proof.Machine
end

