-- ==== Sys2Proof/Laws/Exec.lean ====
section
/-! SUPPORT. Every instruction is one handler run by the cycle's shared wrapper: the lemma every statement about all
instructions goes through. -/

namespace Sys2Proof.Machine

/-- The handler of each instruction, after the generic advance (40_cycle_dispatch.md R83). -/
def handlerOf : Instr → State → Checked State
  | .ldi a imm => withReg a fun ra s => .ok (s.writeReg ra (immediate imm))
  | .prn a => withReg a fun ra s => .ok (s.emit (s.readReg ra))
  | .hlt => fun s => .ok s.halt
  | .add a b => aluTwo aluAdd a b
  | .mul a b => aluTwo aluMul a b
  | .and a b => aluTwo aluAnd a b
  | .or a b => aluTwo aluOr a b
  | .xor a b => aluTwo aluXor a b
  | .not a => withReg a fun ra s => .ok (s.writeReg ra (aluNot (s.readReg ra)))
  | .shl a b => aluTwo aluShl a b
  | .shr a b => aluTwo aluShr a b
  | .cmp a b => withRegs a b fun ra rb s => .ok (s.setFl (compareFlags (s.readReg ra) (s.readReg rb)))
  | .push a => withReg a fun ra s => pushWith s fun s1 => s1.readReg ra
  | .pop a => withReg a popInto
  | .call a => withReg a callTo
  | .ret => returnFrom
  | .jmp a => withReg a fun ra s => .ok (s.jumpTo ra)
  | .jeq a => withReg a (jumpIf fun s => flagE s.fl)
  | .jne a => withReg a (jumpIf fun s => !flagE s.fl)

theorem exec_eq_runHandler (i : Instr) (s : State) : exec i s = runHandler i.opcode (handlerOf i) s := by
  cases i <;> rfl

/-- Every instruction answers a next state: no instruction of this machine is refused or stops outside the state. -/
theorem exec_answers_next (i : Instr) (s : State) : ∃ t, exec i s = .next t := by
  rw [exec_eq_runHandler]
  exact runHandler_answers_next _ _ s

/-- What an instruction does: its handler completes after the advance, or it raises from the state it began in. -/
theorem exec_eq_next {i : Instr} {s t : State} :
    exec i s = .next t ↔
      handlerOf i (advance i.opcode.operandCount i.opcode.setsPc s) = .ok t ∨
      ∃ e, handlerOf i (advance i.opcode.operandCount i.opcode.setsPc s) = .error e ∧ t = raise s e := by
  rw [exec_eq_runHandler, runHandler_eq_next]

/-- Where the handler completes. -/
theorem exec_of_ok {i : Instr} {s t : State}
    (h : handlerOf i (advance i.opcode.operandCount i.opcode.setsPc s) = .ok t) : exec i s = .next t :=
  exec_eq_next.2 (.inl h)

/-- Where the handler raises. -/
theorem exec_of_error {i : Instr} {s : State} {e : Raised}
    (h : handlerOf i (advance i.opcode.operandCount i.opcode.setsPc s) = .error e) :
    exec i s = .next (raise s e) :=
  exec_eq_next.2 (.inr ⟨e, h, rfl⟩)

/-! ### What a completed handler did, by shape -/

theorem aluTwo_eq_ok {f : Byte → Byte → Byte} {a b : Byte} {s u : State} :
    aluTwo f a b s = .ok u ↔ ∃ ra rb : Fin 8, a.toNat = ra.val ∧ b.toNat = rb.val ∧
      u = s.writeReg ra (f (s.readReg ra) (s.readReg rb)) := by
  unfold aluTwo
  rw [withRegs_eq_ok]
  constructor <;> rintro ⟨ra, rb, ha, hb, h⟩ <;> exact ⟨ra, rb, ha, hb, by simpa [eq_comm] using h⟩

theorem aluTwo_eq_error {f : Byte → Byte → Byte} {a b : Byte} {s : State} {e : Raised} :
    aluTwo f a b s = .error e ↔
      (7 < a.toNat ∧ e = ⟨.outOfBoundsReg, a.toNat⟩) ∨
      (a.toNat ≤ 7 ∧ 7 < b.toNat ∧ e = ⟨.outOfBoundsReg, b.toNat⟩) := by
  simp [aluTwo, withRegs_eq_error]

theorem popInto_eq_ok {ra : Fin 8} {s u : State} :
    popInto ra s = .ok u ↔ (s.writeReg ra (readByte s.mem s.sp.toNat)).sp.toNat < 255 ∧
      u = (s.writeReg ra (readByte s.mem s.sp.toNat)).writeReg spIndex
        ((s.writeReg ra (readByte s.mem s.sp.toNat)).sp + 1) := by
  rw [popInto_eq, incrementSp_eq_ok]

theorem popInto_eq_error {ra : Fin 8} {s : State} {e : Raised} :
    popInto ra s = .error e ↔ (s.writeReg ra (readByte s.mem s.sp.toNat)).sp.toNat = 255 ∧
      e = ⟨.outOfBoundsMem, 256⟩ := by
  rw [popInto_eq, incrementSp_eq_error]

theorem jumpIf_eq_ok {cond : State → Bool} {ra : Fin 8} {s u : State} :
    jumpIf cond ra s = .ok u ↔ u = if cond s then s.jumpTo ra else s.setPc (s.pc + 2) := by
  simp only [jumpIf, Except.ok.injEq]
  exact eq_comm

/-- What a completed handler leaves alone, field by field, by the instruction's identity. -/
theorem handlerOf_ok_unchanged {i : Instr} {s u : State} (h : handlerOf i s = .ok u) :
    u.fault = s.fault ∧ (i.opcode ≠ .hlt → u.run = s.run) ∧ (i.opcode ≠ .cmp → u.fl = s.fl) ∧
    (i.opcode ≠ .prn → u.out = s.out) ∧ (i.opcode ≠ .push → i.opcode ≠ .call → u.mem = s.mem) ∧
    (i.opcode.setsPc = false → u.pc = s.pc) := by
  cases i with
  | ldi | prn | not | jmp =>
    simp only [handlerOf] at h
    obtain ⟨ra, -, h⟩ := withReg_eq_ok.1 h
    cases h
    simp [Instr.opcode, Opcode.setsPc, State.jumpTo]
  | hlt =>
    cases h
    simp [Instr.opcode]
  | add | mul | and | or | xor | shl | shr =>
    obtain ⟨ra, rb, -, -, rfl⟩ := aluTwo_eq_ok.1 h
    simp [Instr.opcode]
  | cmp =>
    simp only [handlerOf] at h
    obtain ⟨ra, rb, -, -, h⟩ := withRegs_eq_ok.1 h
    cases h
    simp [Instr.opcode]
  | push =>
    simp only [handlerOf] at h
    obtain ⟨ra, -, h⟩ := withReg_eq_ok.1 h
    obtain ⟨-, rfl⟩ := pushWith_eq_ok.1 h
    simp [Instr.opcode]
  | pop =>
    simp only [handlerOf] at h
    obtain ⟨ra, -, h⟩ := withReg_eq_ok.1 h
    obtain ⟨-, rfl⟩ := popInto_eq_ok.1 h
    simp [Instr.opcode]
  | call =>
    simp only [handlerOf] at h
    obtain ⟨ra, -, h⟩ := withReg_eq_ok.1 h
    obtain ⟨v, hv, rfl⟩ := callTo_eq_ok.1 h
    obtain ⟨-, rfl⟩ := pushWith_eq_ok.1 hv
    simp [Instr.opcode, Opcode.setsPc, State.jumpTo]
  | ret =>
    obtain ⟨-, rfl⟩ := returnFrom_eq_ok.1 h
    simp [Instr.opcode, Opcode.setsPc]
  | jeq | jne =>
    simp only [handlerOf] at h
    obtain ⟨ra, -, h⟩ := withReg_eq_ok.1 h
    rw [jumpIf_eq_ok] at h
    subst h
    split <;> simp [Instr.opcode, Opcode.setsPc, State.jumpTo]

/-- What a handler can raise: a register operand above 7, or a stack pointer out of bounds. -/
theorem handlerOf_error_causes {i : Instr} {s : State} {e : Raised} (h : handlerOf i s = .error e) :
    (∃ d ∈ i.registerOperands, 7 < d.toNat ∧ e = ⟨.outOfBoundsReg, d.toNat⟩) ∨
    e = ⟨.outOfBoundsMem, -1⟩ ∨ e = ⟨.outOfBoundsMem, 256⟩ := by
  cases i with
  | ldi | prn | not | jmp | jeq | jne =>
    simp only [handlerOf] at h
    rcases withReg_eq_error.1 h with ⟨hlt, rfl⟩ | ⟨ra, -, h⟩
    · exact .inl ⟨_, .head _, hlt, rfl⟩
    · cases h
  | hlt => cases h
  | add | mul | and | or | xor | shl | shr =>
    rcases aluTwo_eq_error.1 h with ⟨hlt, rfl⟩ | ⟨-, hlt, rfl⟩
    · exact .inl ⟨_, .head _, hlt, rfl⟩
    · exact .inl ⟨_, .tail _ (.head _), hlt, rfl⟩
  | cmp =>
    simp only [handlerOf] at h
    rcases withRegs_eq_error.1 h with ⟨hlt, rfl⟩ | ⟨-, hlt, rfl⟩ | ⟨_, _, -, -, h⟩
    · exact .inl ⟨_, .head _, hlt, rfl⟩
    · exact .inl ⟨_, .tail _ (.head _), hlt, rfl⟩
    · cases h
  | push =>
    simp only [handlerOf] at h
    rcases withReg_eq_error.1 h with ⟨hlt, rfl⟩ | ⟨ra, -, h⟩
    · exact .inl ⟨_, .head _, hlt, rfl⟩
    · exact .inr (.inl (pushWith_eq_error.1 h).2)
  | pop =>
    simp only [handlerOf] at h
    rcases withReg_eq_error.1 h with ⟨hlt, rfl⟩ | ⟨ra, -, h⟩
    · exact .inl ⟨_, .head _, hlt, rfl⟩
    · exact .inr (.inr (popInto_eq_error.1 h).2)
  | call =>
    simp only [handlerOf] at h
    rcases withReg_eq_error.1 h with ⟨hlt, rfl⟩ | ⟨ra, -, h⟩
    · exact .inl ⟨_, .head _, hlt, rfl⟩
    · exact .inr (.inl (pushWith_eq_error.1 (callTo_eq_error.1 h)).2)
  | ret => exact .inr (.inr (returnFrom_eq_error.1 h).2)

/-! ### The flags of a comparison -/

/-- The three outcomes of a comparison (42_compare.md R111). -/
theorem compareFlags_eq (va vb : Byte) :
    compareFlags va vb =
      if va.toNat = vb.toNat then 0x01#8 else if va.toNat > vb.toNat then 0x02#8 else 0x04#8 := by
  unfold compareFlags flagBit
  by_cases h : va = vb
  · subst h
    simp
  · have hne : va.toNat ≠ vb.toNat := fun e => h (BitVec.eq_of_toNat_eq e)
    rcases Nat.lt_or_ge va.toNat vb.toNat with hlt | hge
    · have : ¬ vb.toNat < va.toNat := by omega
      simp [h, hne, hlt, this]
    · have hgt : vb.toNat < va.toNat := by omega
      have : ¬ va.toNat < vb.toNat := by omega
      simp [h, hne, hgt, this]

end Sys2Proof.Machine
end

