-- ==== Sys2Proof/Laws/PerInstr.lean ====
section
/-! SUPPORT. One statement per instruction as syntax: its opcode byte says how many operand bytes follow and whether the
handler writes the pc (30_encoding.md R61, R62, R67), under the default opcode map. -/

namespace Sys2Proof.Laws.OpcodeByte

/-- The encoding of `i` is one opcode byte and as many operand bytes as that byte's NN field says; its C bit says whether
the instruction's handler writes the pc. -/
def Statement (i : Instr) : Prop :=
  ∃ ir rest, encode defaultConfig i = ir :: rest ∧ rest.length = operandCountField ir ∧
    lengthOf ir = (encode defaultConfig i).length ∧ setsPcBit ir = i.opcode.setsPc

theorem of_wellFormed (i : Instr) : Statement i := by
  obtain ⟨hn, hc⟩ := Config.wellFormed_bits defaultConfig_wellFormed i.opcode
  refine ⟨_, _, rfl, ?_, ?_, hc⟩
  · rw [length_operands, hn]
  · rw [length_encode, lengthOf, hn]

theorem ldi (a imm : Byte) : Statement (.ldi a imm) := of_wellFormed _
theorem prn (a : Byte) : Statement (.prn a) := of_wellFormed _
theorem hlt : Statement .hlt := of_wellFormed _
theorem add (a b : Byte) : Statement (.add a b) := of_wellFormed _
theorem mul (a b : Byte) : Statement (.mul a b) := of_wellFormed _
theorem and (a b : Byte) : Statement (.and a b) := of_wellFormed _
theorem or (a b : Byte) : Statement (.or a b) := of_wellFormed _
theorem xor (a b : Byte) : Statement (.xor a b) := of_wellFormed _
theorem not (a : Byte) : Statement (.not a) := of_wellFormed _
theorem shl (a b : Byte) : Statement (.shl a b) := of_wellFormed _
theorem shr (a b : Byte) : Statement (.shr a b) := of_wellFormed _
theorem cmp (a b : Byte) : Statement (.cmp a b) := of_wellFormed _
theorem push (a : Byte) : Statement (.push a) := of_wellFormed _
theorem pop (a : Byte) : Statement (.pop a) := of_wellFormed _
theorem call (a : Byte) : Statement (.call a) := of_wellFormed _
theorem ret : Statement .ret := of_wellFormed _
theorem jmp (a : Byte) : Statement (.jmp a) := of_wellFormed _
theorem jeq (a : Byte) : Statement (.jeq a) := of_wellFormed _
theorem jne (a : Byte) : Statement (.jne a) := of_wellFormed _

end Sys2Proof.Laws.OpcodeByte
end

