-- ==== Sys2Proof/Laws/Step.lean ====
section
/-! SUPPORT. What a step can do, once (40_cycle_dispatch.md R80 to R90), and what placing an instruction does. -/

namespace Sys2Proof.Machine

theorem stepWith_stopped {c : Config} {s : State} (h : s.run ≠ .running) : stepWith c s = .next s := by
  unfold stepWith
  cases hr : s.run <;> simp_all

theorem stepWith_running {c : Config} {s : State} (h : s.run = .running) : stepWith c s = cycle c s := by
  simp [stepWith, h]

/-- The window a cycle at `pc` up to 253 fetches. -/
def windowAt (s : State) : Window :=
  ⟨readByte s.mem s.pc, readByte s.mem (s.pc + 1), readByte s.mem (s.pc + 2)⟩

theorem fetch_windowAt {s : State} (h : s.pc ≤ 253) : fetch s = .ok (windowAt s) :=
  fetch_eq_ok.2 ⟨h, rfl⟩

/-- A cycle whose fetch is out of range. -/
theorem cycle_of_fetch_above (c : Config) {s : State} (h : 254 ≤ s.pc) :
    cycle c s = .next (raise s ⟨.outOfBoundsMem, max (s.pc : Int) 256⟩) := by
  simp [cycle, fetch_eq_error.2 ⟨h, rfl⟩]

/-- A cycle whose window decodes runs the instruction. -/
theorem cycle_of_decoded {c : Config} {s : State} {i : Instr} (h : s.pc ≤ 253)
    (hd : decodeWindow c (windowAt s) = .ok i) : cycle c s = exec i s := by
  simp [cycle, fetch_windowAt h, hd]

/-- A cycle whose opcode byte is not in the map. -/
theorem cycle_of_unknown {c : Config} {s : State} (h : s.pc ≤ 253)
    (hu : opcodeOf c (readByte s.mem s.pc) = none) :
    cycle c s = unknownOpcodeCycle c.unknownOpcode (readByte s.mem s.pc) s := by
  have hd : decodeWindow c (windowAt s) = .error (.unknownOpcode (readByte s.mem s.pc)) :=
    decodeWindow_eq_error.2 ⟨hu, rfl⟩
  simp only [cycle, fetch_windowAt h, hd]
  rfl

/-- Everything a step that answers a next state can have done. -/
theorem stepWith_cases {c : Config} {s t : State} (h : stepWith c s = .next t) :
    (s.run ≠ .running ∧ t = s) ∨
    (s.run = .running ∧ 254 ≤ s.pc ∧ t = raise s ⟨.outOfBoundsMem, max (s.pc : Int) 256⟩) ∨
    (s.run = .running ∧ s.pc ≤ 253 ∧ ∃ i, decodeWindow c (windowAt s) = .ok i ∧ exec i s = .next t) ∨
    (s.run = .running ∧ s.pc ≤ 253 ∧ opcodeOf c (readByte s.mem s.pc) = none ∧
      ((c.unknownOpcode = .fatal ∧ t = raise s ⟨.unknownOpcode, (readByte s.mem s.pc).toNat⟩) ∨
       (c.unknownOpcode = .legacyNop ∧
        t = advance (operandCountField (readByte s.mem s.pc)) (setsPcBit (readByte s.mem s.pc)) s))) := by
  by_cases hr : s.run = .running
  · rw [stepWith_running hr] at h
    by_cases hpc : s.pc ≤ 253
    · cases hu : opcodeOf c (readByte s.mem s.pc) with
      | none =>
        rw [cycle_of_unknown hpc hu] at h
        refine .inr (.inr (.inr ⟨hr, hpc, rfl, ?_⟩))
        cases hp : c.unknownOpcode with
        | fatal => exact .inl ⟨rfl, by simpa [unknownOpcodeCycle, hp, eq_comm] using h⟩
        | legacyNop => exact .inr ⟨rfl, by simpa [unknownOpcodeCycle, hp, eq_comm] using h⟩
      | some op =>
        have hd : decodeWindow c (windowAt s) = .ok (instrOf op (windowAt s).opa (windowAt s).opb) :=
          decodeWindow_eq_ok.2 ⟨op, hu, rfl⟩
        rw [cycle_of_decoded hpc hd] at h
        exact .inr (.inr (.inl ⟨hr, hpc, _, hd, h⟩))
    · rw [cycle_of_fetch_above c (by omega)] at h
      exact .inr (.inl ⟨hr, by omega, by simpa [eq_comm] using h⟩)
  · rw [stepWith_stopped hr] at h
    exact .inl ⟨hr, by simpa [eq_comm] using h⟩

/-- A step always answers a next state. -/
theorem stepWith_answers_next (c : Config) (s : State) : ∃ t, stepWith c s = .next t := by
  unfold stepWith cycle unknownOpcodeCycle
  split
  · split
    · exact ⟨_, rfl⟩
    · split
      · exact exec_answers_next _ _
      · split <;> exact ⟨_, rfl⟩
  · exact ⟨_, rfl⟩
  · exact ⟨_, rfl⟩

/-- A placed window is what the next cycle fetches. -/
theorem fetch_placeWindow {s : State} (w : Window) (h : s.pc ≤ 253) : fetch (placeWindow s w) = .ok w := by
  refine fetch_eq_ok.2 ⟨h, ?_⟩
  simp [placeWindow, readByte_writeByte]

/-- The step after `withFetchWord` runs the word's instruction. -/
theorem step_withFetchWord {s : State} {nbits w : Nat} {i : Instr} (h : decodeTableWord nbits w = some i) :
    step (s.withFetchWord nbits w) = exec i (s.withFetchWord nbits w) := by
  have hf : fetch (s.withFetchWord nbits w) = .ok (windowOfWord nbits w) :=
    fetch_placeWindow _ (by dsimp only; split <;> omega)
  have hd : decodeWindow defaultConfig (windowOfWord nbits w) = .ok i := by
    unfold decodeTableWord at h
    cases hw : decodeWindow defaultConfig (windowOfWord nbits w) with
    | error e => simp [hw, Except.toOption] at h
    | ok j => simpa [hw, Except.toOption] using h
  have hr : (s.withFetchWord nbits w).run = .running := rfl
  simp only [step, stepWith, hr, cycle, hf, hd]

end Sys2Proof.Machine
end

