-- ==== Sys2Proof/Tests/Slice0.lean ====
section
/-! SUPPORT. Tests of the model. Expected results come from the encodings of 30_encoding.md R66 and spec/opcode_table.json,
from the vectors of 95_test_vectors.md (derived there by hand from the rules; their ids stand in each comment) and from
the rules named; the last part gives a witness for the hypotheses of every obligation. -/

namespace Sys2Proof.Tests

open Sys2Proof.Machine

/-! ### Helpers -/

/-- The reset state with bytes loaded from an address on. -/
def boot (addr : Nat) (bytes : List Byte) : State := loadFrom addr bytes State.reset

/-- A next state with a property. -/
def goes (r : Result) (p : State → Bool) : Bool :=
  match r with
  | .next t => p t
  | .fault _ => false
  | .refused _ => false

/-- The machine stopped with this fault record. -/
def faultedWith (t : State) (cause : FaultCause) (index : Int) (ipc : Nat) : Bool :=
  decide (t.run = .faulted ∧ t.fault = ⟨cause, index, ipc⟩ ∧ t.pc = ipc)

/-- The default map under the policy `legacy_nop`. -/
def legacyConfig : Config := { defaultConfig with unknownOpcode := .legacyNop }

/-! ### WellFormed: an ill-formed term for each check -/

theorem test_wellFormed_rejects_ldi : (Instr.ldi 8#8 0#8).wellFormed = false := by decide

theorem test_wellFormed_accepts_any_immediate : (Instr.ldi 7#8 255#8).wellFormed = true := by decide

theorem test_wellFormed_rejects_prn : (Instr.prn 8#8).wellFormed = false := by decide

theorem test_wellFormed_rejects_not : (Instr.not 8#8).wellFormed = false := by decide

theorem test_wellFormed_rejects_push : (Instr.push 8#8).wellFormed = false := by decide

theorem test_wellFormed_rejects_pop : (Instr.pop 8#8).wellFormed = false := by decide

theorem test_wellFormed_rejects_call : (Instr.call 8#8).wellFormed = false := by decide

theorem test_wellFormed_rejects_jmp : (Instr.jmp 8#8).wellFormed = false := by decide

theorem test_wellFormed_rejects_jeq : (Instr.jeq 8#8).wellFormed = false := by decide

theorem test_wellFormed_rejects_jne : (Instr.jne 8#8).wellFormed = false := by decide

theorem test_wellFormed_rejects_add : (Instr.add 8#8 7#8).wellFormed = false ∧ (Instr.add 7#8 255#8).wellFormed = false := by
  decide

theorem test_wellFormed_rejects_mul : (Instr.mul 8#8 7#8).wellFormed = false ∧ (Instr.mul 7#8 255#8).wellFormed = false := by
  decide

theorem test_wellFormed_rejects_and : (Instr.and 8#8 7#8).wellFormed = false ∧ (Instr.and 7#8 255#8).wellFormed = false := by
  decide

theorem test_wellFormed_rejects_or : (Instr.or 8#8 7#8).wellFormed = false ∧ (Instr.or 7#8 255#8).wellFormed = false := by
  decide

theorem test_wellFormed_rejects_xor : (Instr.xor 8#8 7#8).wellFormed = false ∧ (Instr.xor 7#8 255#8).wellFormed = false := by
  decide

theorem test_wellFormed_rejects_shl : (Instr.shl 8#8 7#8).wellFormed = false ∧ (Instr.shl 7#8 255#8).wellFormed = false := by
  decide

theorem test_wellFormed_rejects_shr : (Instr.shr 8#8 7#8).wellFormed = false ∧ (Instr.shr 7#8 255#8).wellFormed = false := by
  decide

theorem test_wellFormed_rejects_cmp : (Instr.cmp 8#8 7#8).wellFormed = false ∧ (Instr.cmp 7#8 255#8).wellFormed = false := by
  decide

/-- A configuration that drops a sets_pc bit (HLT's byte with bit 4 set), one that gives two instructions one byte, and the
default one (30_encoding.md R67). -/
theorem test_config_wellFormed :
    (Config.wellFormed { defaultConfig with opcodeMap := fun op => if op = .hlt then 0x12#8 else ls8OpcodeByte op }) = false ∧
    (Config.wellFormed { defaultConfig with opcodeMap := fun op => if op = .jne then 0x55#8 else ls8OpcodeByte op }) = false ∧
    defaultConfig.wellFormed = true := by
  decide

/-! ### Decoding: one word per constructor, written out from the encoding column of the table (first byte lowest) -/

theorem test_decode_ldi : decode defaultConfig [0b10000010#8, 0b00000011#8, 0b00000101#8] = .ok (.ldi 3#8 5#8) ∧
    decodeTableWord 24 0b000001010000001110000010 = some (.ldi 3#8 5#8) ∧
    encode defaultConfig (.ldi 3#8 5#8) = [0b10000010#8, 0b00000011#8, 0b00000101#8] := by
  decide

theorem test_decode_prn : decode defaultConfig [0b01000111#8, 0b00000011#8, 0b11111111#8] = .ok (.prn 3#8) ∧
    decodeTableWord 16 0b0000001101000111 = some (.prn 3#8) ∧
    encode defaultConfig (.prn 3#8) = [0b01000111#8, 0b00000011#8] := by
  decide

theorem test_decode_hlt : decode defaultConfig [0b00000001#8, 0b11111111#8, 0b11111111#8] = .ok (.hlt) ∧
    decodeTableWord 8 0b00000001 = some (.hlt) ∧
    encode defaultConfig (.hlt) = [0b00000001#8] := by
  decide

theorem test_decode_add : decode defaultConfig [0b10100000#8, 0b00000011#8, 0b00000101#8] = .ok (.add 3#8 5#8) ∧
    decodeTableWord 24 0b000001010000001110100000 = some (.add 3#8 5#8) ∧
    encode defaultConfig (.add 3#8 5#8) = [0b10100000#8, 0b00000011#8, 0b00000101#8] := by
  decide

theorem test_decode_mul : decode defaultConfig [0b10100010#8, 0b00000011#8, 0b00000101#8] = .ok (.mul 3#8 5#8) ∧
    decodeTableWord 24 0b000001010000001110100010 = some (.mul 3#8 5#8) ∧
    encode defaultConfig (.mul 3#8 5#8) = [0b10100010#8, 0b00000011#8, 0b00000101#8] := by
  decide

theorem test_decode_and : decode defaultConfig [0b10101000#8, 0b00000011#8, 0b00000101#8] = .ok (.and 3#8 5#8) ∧
    decodeTableWord 24 0b000001010000001110101000 = some (.and 3#8 5#8) ∧
    encode defaultConfig (.and 3#8 5#8) = [0b10101000#8, 0b00000011#8, 0b00000101#8] := by
  decide

theorem test_decode_or : decode defaultConfig [0b10101010#8, 0b00000011#8, 0b00000101#8] = .ok (.or 3#8 5#8) ∧
    decodeTableWord 24 0b000001010000001110101010 = some (.or 3#8 5#8) ∧
    encode defaultConfig (.or 3#8 5#8) = [0b10101010#8, 0b00000011#8, 0b00000101#8] := by
  decide

theorem test_decode_xor : decode defaultConfig [0b10101011#8, 0b00000011#8, 0b00000101#8] = .ok (.xor 3#8 5#8) ∧
    decodeTableWord 24 0b000001010000001110101011 = some (.xor 3#8 5#8) ∧
    encode defaultConfig (.xor 3#8 5#8) = [0b10101011#8, 0b00000011#8, 0b00000101#8] := by
  decide

theorem test_decode_not : decode defaultConfig [0b01101001#8, 0b00000011#8, 0b11111111#8] = .ok (.not 3#8) ∧
    decodeTableWord 16 0b0000001101101001 = some (.not 3#8) ∧
    encode defaultConfig (.not 3#8) = [0b01101001#8, 0b00000011#8] := by
  decide

theorem test_decode_shl : decode defaultConfig [0b10101100#8, 0b00000011#8, 0b00000101#8] = .ok (.shl 3#8 5#8) ∧
    decodeTableWord 24 0b000001010000001110101100 = some (.shl 3#8 5#8) ∧
    encode defaultConfig (.shl 3#8 5#8) = [0b10101100#8, 0b00000011#8, 0b00000101#8] := by
  decide

theorem test_decode_shr : decode defaultConfig [0b10101101#8, 0b00000011#8, 0b00000101#8] = .ok (.shr 3#8 5#8) ∧
    decodeTableWord 24 0b000001010000001110101101 = some (.shr 3#8 5#8) ∧
    encode defaultConfig (.shr 3#8 5#8) = [0b10101101#8, 0b00000011#8, 0b00000101#8] := by
  decide

theorem test_decode_cmp : decode defaultConfig [0b10100111#8, 0b00000011#8, 0b00000101#8] = .ok (.cmp 3#8 5#8) ∧
    decodeTableWord 24 0b000001010000001110100111 = some (.cmp 3#8 5#8) ∧
    encode defaultConfig (.cmp 3#8 5#8) = [0b10100111#8, 0b00000011#8, 0b00000101#8] := by
  decide

theorem test_decode_push : decode defaultConfig [0b01000101#8, 0b00000011#8, 0b11111111#8] = .ok (.push 3#8) ∧
    decodeTableWord 16 0b0000001101000101 = some (.push 3#8) ∧
    encode defaultConfig (.push 3#8) = [0b01000101#8, 0b00000011#8] := by
  decide

theorem test_decode_pop : decode defaultConfig [0b01000110#8, 0b00000011#8, 0b11111111#8] = .ok (.pop 3#8) ∧
    decodeTableWord 16 0b0000001101000110 = some (.pop 3#8) ∧
    encode defaultConfig (.pop 3#8) = [0b01000110#8, 0b00000011#8] := by
  decide

theorem test_decode_call : decode defaultConfig [0b01010000#8, 0b00000011#8, 0b11111111#8] = .ok (.call 3#8) ∧
    decodeTableWord 16 0b0000001101010000 = some (.call 3#8) ∧
    encode defaultConfig (.call 3#8) = [0b01010000#8, 0b00000011#8] := by
  decide

theorem test_decode_ret : decode defaultConfig [0b00010001#8, 0b11111111#8, 0b11111111#8] = .ok (.ret) ∧
    decodeTableWord 8 0b00010001 = some (.ret) ∧
    encode defaultConfig (.ret) = [0b00010001#8] := by
  decide

theorem test_decode_jmp : decode defaultConfig [0b01010100#8, 0b00000011#8, 0b11111111#8] = .ok (.jmp 3#8) ∧
    decodeTableWord 16 0b0000001101010100 = some (.jmp 3#8) ∧
    encode defaultConfig (.jmp 3#8) = [0b01010100#8, 0b00000011#8] := by
  decide

theorem test_decode_jeq : decode defaultConfig [0b01010101#8, 0b00000011#8, 0b11111111#8] = .ok (.jeq 3#8) ∧
    decodeTableWord 16 0b0000001101010101 = some (.jeq 3#8) ∧
    encode defaultConfig (.jeq 3#8) = [0b01010101#8, 0b00000011#8] := by
  decide

theorem test_decode_jne : decode defaultConfig [0b01010110#8, 0b00000011#8, 0b11111111#8] = .ok (.jne 3#8) ∧
    decodeTableWord 16 0b0000001101010110 = some (.jne 3#8) ∧
    encode defaultConfig (.jne 3#8) = [0b01010110#8, 0b00000011#8] := by
  decide

theorem test_decode_unknown : decode defaultConfig [0x00#8, 0#8, 0#8] = .error (.unknownOpcode 0x00#8) ∧
    decode defaultConfig [0xB0#8, 0#8, 0#8] = .error (.unknownOpcode 0xB0#8) ∧ decodeTableWord 8 0 = none := by
  decide

theorem test_decode_short_window : decode defaultConfig [0x01#8, 0#8] = .error .shortWindow := by decide

theorem test_decodeTableWord_bits_above_nbits_are_zero : decodeTableWord 8 0x050382 = some (.ldi 0#8 0#8) := by decide

/-! ### One step of each instruction (95_test_vectors.md, part 2) -/

/-- A4. -/
theorem test_add_loses_carry : goes (step (((boot 0 [0xA0#8, 0x00#8, 0x01#8]).writeReg 0 0xC8#8).writeReg 1 0x64#8))
    (fun t => t.readReg 0 == 0x2C#8 && t.readReg 1 == 0x64#8 && t.pc == 3 && t.fl == 0#8 && t.sp == 0xF4#8) = true := by
  decide

/-- A9. -/
theorem test_mul_keeps_low_byte : goes (step (((boot 0 [0xA2#8, 0x00#8, 0x01#8]).writeReg 0 0xFF#8).writeReg 1 0xFF#8))
    (fun t => t.readReg 0 == 0x01#8 && t.readReg 1 == 0xFF#8 && t.pc == 3 && t.fl == 0#8 && t.sp == 0xF4#8) = true := by
  decide

/-- A11. -/
theorem test_mul_low_byte_of_600 : goes (step (((boot 0 [0xA2#8, 0x00#8, 0x01#8]).writeReg 0 0xC8#8).writeReg 1 0x03#8))
    (fun t => t.readReg 0 == 0x58#8 && t.readReg 1 == 0x03#8 && t.pc == 3 && t.fl == 0#8 && t.sp == 0xF4#8) = true := by
  decide

/-- A13. -/
theorem test_and : goes (step (((boot 0 [0xA8#8, 0x00#8, 0x01#8]).writeReg 0 0xCC#8).writeReg 1 0xAA#8))
    (fun t => t.readReg 0 == 0x88#8 && t.readReg 1 == 0xAA#8 && t.pc == 3 && t.fl == 0#8 && t.sp == 0xF4#8) = true := by
  decide

/-- A15. -/
theorem test_or : goes (step (((boot 0 [0xAA#8, 0x00#8, 0x01#8]).writeReg 0 0xCC#8).writeReg 1 0xAA#8))
    (fun t => t.readReg 0 == 0xEE#8 && t.readReg 1 == 0xAA#8 && t.pc == 3 && t.fl == 0#8 && t.sp == 0xF4#8) = true := by
  decide

/-- A17. -/
theorem test_xor : goes (step (((boot 0 [0xAB#8, 0x00#8, 0x01#8]).writeReg 0 0xCC#8).writeReg 1 0xAA#8))
    (fun t => t.readReg 0 == 0x66#8 && t.readReg 1 == 0xAA#8 && t.pc == 3 && t.fl == 0#8 && t.sp == 0xF4#8) = true := by
  decide

/-- A20, and A41: the third fetched byte is ignored. -/
theorem test_not : goes (step (((boot 0 [0x69#8, 0x00#8, 0xFF#8]).writeReg 0 0xAA#8).writeReg 1 0x00#8))
    (fun t => t.readReg 0 == 0x55#8 && t.readReg 1 == 0x00#8 && t.pc == 2 && t.fl == 0#8 && t.sp == 0xF4#8) = true := by
  decide

/-- A25. -/
theorem test_shl_drops_bits : goes (step (((boot 0 [0xAC#8, 0x00#8, 0x01#8]).writeReg 0 0x55#8).writeReg 1 0x02#8))
    (fun t => t.readReg 0 == 0x54#8 && t.readReg 1 == 0x02#8 && t.pc == 3 && t.fl == 0#8 && t.sp == 0xF4#8) = true := by
  decide

/-- A29. -/
theorem test_shr_fills_with_zeros : goes (step (((boot 0 [0xAD#8, 0x00#8, 0x01#8]).writeReg 0 0x80#8).writeReg 1 0x07#8))
    (fun t => t.readReg 0 == 0x01#8 && t.readReg 1 == 0x07#8 && t.pc == 3 && t.fl == 0#8 && t.sp == 0xF4#8) = true := by
  decide

/-- A30. -/
theorem test_shr_count_of_width : goes (step (((boot 0 [0xAD#8, 0x00#8, 0x01#8]).writeReg 0 0x80#8).writeReg 1 0x08#8))
    (fun t => t.readReg 0 == 0x00#8 && t.readReg 1 == 0x08#8 && t.pc == 3 && t.fl == 0#8 && t.sp == 0xF4#8) = true := by
  decide

/-- A28, source and destination one register. -/
theorem test_aliased_shl : goes (step ((boot 0 [0xAC#8, 0x00#8, 0x00#8]).writeReg 0 0x03#8))
    (fun t => t.readReg 0 == 0x18#8 && t.pc == 3) = true := by
  decide

/-- A35. -/
theorem test_add_wraps_stack_pointer : goes (step ((boot 0 [0xA0#8, 0x07#8, 0x01#8]).writeReg 1 0x10#8))
    (fun t => t.sp == 0x04#8 && t.run == .running) = true := by
  decide

/-- A39, with XOR for ADD. -/
theorem test_operand_a_checked_first : goes (step (boot 0 [0xAB#8, 0x09#8, 0x0A#8]))
    (fun t => faultedWith t .outOfBoundsReg 9 0) = true := by
  decide

/-- C5. -/
theorem test_cmp_is_unsigned : goes (step (((boot 0 [0xA7#8, 0x00#8, 0x01#8]).writeReg 0 0x80#8).writeReg 1 0x7F#8))
    (fun t => t.fl == 0x02#8 && t.pc == 3 && t.readReg 0 == 0x80#8) = true := by
  decide

/-- C9. -/
theorem test_cmp_replaces_old_flags : goes (step ((((boot 0 [0xA7#8, 0x00#8, 0x01#8]).writeReg 0 0x03#8).writeReg 1 0x05#8).setFl 0x01#8))
    (fun t => t.fl == 0x04#8) = true := by
  decide

/-- K3. -/
theorem test_push_r7_stores_decremented_pointer : goes (step (boot 0 [0x45#8, 0x07#8]))
    (fun t => t.sp == 0xF3#8 && readByte t.mem 0xF3 == 0xF3#8 && readByte t.mem 0xF4 == 0x00#8 && t.pc == 2) = true := by
  decide

/-- K5. -/
theorem test_push_at_zero : goes (step ((boot 0 [0x45#8, 0x00#8]).writeReg 7 0x00#8))
    (fun t => faultedWith t .outOfBoundsMem (-1) 0 && t.sp == 0x00#8 && readByte t.mem 0xFF == 0x00#8) = true := by
  decide

/-- K4. -/
theorem test_pop_r7 : goes (step ((((boot 0 [0x46#8, 0x07#8]).writeReg 7 0xF3#8).setMem 0xF3 0x10#8)))
    (fun t => t.sp == 0x11#8 && t.pc == 2) = true := by
  decide

/-- K7. -/
theorem test_pop_at_255_writes_nothing : goes (step ((((boot 0 [0x46#8, 0x00#8]).writeReg 7 0xFF#8).setMem 0xFF 0x07#8)))
    (fun t => faultedWith t .outOfBoundsMem 256 0 && t.readReg 0 == 0x00#8 && t.sp == 0xFF#8) = true := by
  decide

/-- J11. -/
theorem test_call : goes (step (((boot 3 [0x50#8, 0x01#8]).writeReg 1 0x08#8).setPc 3))
    (fun t => t.sp == 0xF3#8 && readByte t.mem 0xF3 == 0x05#8 && t.pc == 0x08) = true := by
  decide

/-- J13. -/
theorem test_call_r7 : goes (step (boot 0 [0x50#8, 0x07#8]))
    (fun t => t.sp == 0xF3#8 && readByte t.mem 0xF3 == 0x02#8 && t.pc == 0xF3) = true := by
  decide

/-- J12. -/
theorem test_ret : goes (step ((((boot 0x0B [0x11#8]).writeReg 7 0xF3#8).setMem 0xF3 0x05#8).setPc 0x0B))
    (fun t => t.pc == 0x05 && t.sp == 0xF4#8) = true := by
  decide

/-- J1. -/
theorem test_jmp : goes (step ((boot 0 [0x54#8, 0x02#8]).writeReg 2 0x20#8))
    (fun t => t.pc == 0x20) = true := by
  decide

/-- J3. -/
theorem test_jeq_taken : goes (step ((((boot 0x10 [0x55#8, 0x02#8]).writeReg 2 0x20#8).setFl 0x01#8).setPc 0x10))
    (fun t => t.pc == 0x20) = true := by
  decide

/-- J5. -/
theorem test_jeq_not_taken : goes (step ((((boot 0x10 [0x55#8, 0x02#8]).writeReg 2 0x20#8).setFl 0x02#8).setPc 0x10))
    (fun t => t.pc == 0x12) = true := by
  decide

/-- J7. -/
theorem test_jne_taken : goes (step ((((boot 0x14 [0x56#8, 0x03#8]).writeReg 3 0x0C#8).setFl 0x04#8).setPc 0x14))
    (fun t => t.pc == 0x0C) = true := by
  decide

/-- J8. -/
theorem test_jne_not_taken : goes (step ((((boot 0x14 [0x56#8, 0x03#8]).writeReg 3 0x0C#8).setFl 0x01#8).setPc 0x14))
    (fun t => t.pc == 0x16) = true := by
  decide

/-- J18. -/
theorem test_hlt : goes (step ((boot 0xFD [0x01#8]).setPc 0xFD))
    (fun t => t.run == .halted && t.pc == 0xFE && decide (t.fault = ⟨.noFault, 0, 0⟩)) = true := by
  decide

/-- L5. -/
theorem test_ldi_immediate_is_no_register_index : goes (step (boot 0 [0x82#8, 0x00#8, 0x09#8]))
    (fun t => t.readReg 0 == 0x09#8 && t.pc == 3) = true := by
  decide

/-- L7. -/
theorem test_prn : goes (step (boot 0 [0x47#8, 0x07#8]))
    (fun t => t.out == [244#8] && t.pc == 2) = true := by
  decide

theorem test_render_out : renderOut [72#8, 0#8, 244#8] = "72\n0\n244\n" := by decide

/-! ### The cycle (95_test_vectors.md, fetch vectors) -/

/-- F1. -/
theorem test_empty_memory_faults : goes (step (State.reset))
    (fun t => faultedWith t .unknownOpcode 0 0) = true := by
  decide

/-- F4. -/
theorem test_alu_bit_is_matched : goes (step (boot 0 [0x80#8, 0x00#8, 0x00#8]))
    (fun t => faultedWith t .unknownOpcode 128 0) = true := by
  decide

/-- F9. -/
theorem test_fetch_at_255 : goes (step (State.reset.setPc 0xFF))
    (fun t => faultedWith t .outOfBoundsMem 256 255) = true := by
  decide

/-- F8. -/
theorem test_pc_passes_255 : goes (step ((boot 0xFD [0x82#8, 0x01#8, 0x07#8]).setPc 0xFD))
    (fun t => t.pc == 0x100 && t.readReg 1 == 7#8) = true := by
  decide

/-- F6, F5: under `legacy_nop` an operand count of 3 advances by 4, and a byte with bit 4 set changes nothing. -/
theorem test_legacy_nop : goes (stepWith legacyConfig (boot 0 [0xC0#8, 0x01#8, 0x01#8, 0x01#8, 0x01#8])) (fun t => t.pc == 4) = true ∧
    goes (stepWith legacyConfig (boot 0 [0x10#8])) (fun t => decide (t = boot 0 [0x10#8])) = true := by
  decide

/-- A word placed for the next step runs from reset: ADD R0,R1 (A2), and at a pc where nothing can execute. -/
theorem test_withFetchWord : goes (step (((State.reset.writeReg 0 1#8).writeReg 1 2#8).withFetchWord 24 0x0100A0))
      (fun t => t.readReg 0 == 3#8 && t.pc == 3) = true ∧
    goes (step ((State.reset.setPc 255).withFetchWord 8 0x01)) (fun t => t.run == .halted) = true := by
  decide

/-- The canonical form: a written zero is unlisted, cells stand in rising order. -/
theorem test_memory_canonical : writeByte (writeByte (writeByte [] 9 1#8) 3 2#8) 9 0#8 = [(3, 2#8)] ∧
    writeByte (writeByte [] 9 1#8) 3 2#8 = [(3, 2#8), (9, 1#8)] ∧ Memory.wf [(9, 1#8), (3, 2#8)] = false ∧
    Memory.wf [(3, 0#8)] = false ∧ Memory.wf [(256, 1#8)] = false := by
  decide

/-! ### Witnesses: states and operands that meet the hypotheses of the obligations, at boundary values -/

/-- The operand byte 7 names the last register, 0 the first, and 8 names none. -/
theorem witness_registerOperands : (7#8).toNat = (7 : Fin 8).val ∧ (0#8).toNat = (0 : Fin 8).val ∧ 7 < (8#8).toNat ∧
    (7#8).toNat ≤ 7 := by
  decide

/-- Programs of 0, 256 and 257 bytes (boundary of the loader's contract). -/
theorem witness_LaunchStateOfProgram : ([] : List Byte).length ≤ 256 ∧ (List.replicate 256 0x01#8).length ≤ 256 ∧
    256 < (List.replicate 257 0x01#8).length ∧ 0 < (List.replicate 256 0x01#8).length := by
  simp only [List.length_nil, List.length_replicate]
  decide

theorem witness_LaunchMeetsInvariant : ∃ t, loadProgram [0x01#8] = .next t ∧ t ≠ State.reset :=
  ⟨_, rfl, by decide⟩

/-- Load addresses 255 and 256, and a started session whose core steps. -/
theorem witness_HostMovesAndWhenTheyExist : (255 : Nat) ≤ 255 ∧ 255 < (256 : Nat) ∧
    ∃ t, stepWith defaultConfig (boot 0 [0x01#8]) = .next t ∧ t.run = .halted :=
  ⟨by decide, by decide, _, rfl, rfl⟩

/-- A register operand of 8 and of 7; addresses -1, 256, 0 and 255. -/
theorem witness_CheckedAccessPrimitives : 7 < (8#8).toNat ∧ (7#8).toNat = (7 : Fin 8).val ∧
    ((-1 : Int) < 0 ∨ 255 < (-1 : Int)) ∧ ((256 : Int) < 0 ∨ 255 < (256 : Int)) ∧ (255 : Nat) ≤ 255 := by
  decide

/-- A program of one byte, its byte and the first and the last cell after it. -/
theorem witness_MemoryReadWriteContract : ∃ t, loadProgram [0x01#8] = .next t ∧ 0 < [0x01#8].length ∧
    [0x01#8].length ≤ 1 ∧ [0x01#8].length ≤ 255 ∧ 254 ≠ (255 : Nat) :=
  ⟨_, rfl, by decide, by decide, by decide, by decide⟩

/-- A second memory that agrees with the reset one at the window; it differs elsewhere. -/
theorem witness_DataAccesses_fetch : State.reset.pc ≤ 253 ∧ (State.reset.setPc 253).pc ≤ 253 ∧
    readByte [(3, 1#8)] State.reset.pc = readByte State.reset.mem State.reset.pc ∧
    readByte [(3, 1#8)] (State.reset.pc + 1) = readByte State.reset.mem (State.reset.pc + 1) ∧
    readByte [(3, 1#8)] (State.reset.pc + 2) = readByte State.reset.mem (State.reset.pc + 2) := by
  decide

theorem witness_DataAccesses_none : Opcode.ldi ∉ [Opcode.push, .call, .pop, .ret] ∧
    ∃ t, exec (.ldi 0#8 8#8) State.reset = .next t ∧ t.run = .running :=
  ⟨by decide, _, rfl, rfl⟩

theorem witness_DataAccesses_reads : Opcode.pop ∈ [Opcode.pop, .ret] ∧ Opcode.ret ∈ [Opcode.pop, .ret] ∧
    readByte [(0, 1#8)] State.reset.x[(7 : Fin 8)].toNat = readByte State.reset.mem State.reset.x[(7 : Fin 8)].toNat ∧
    (7#8).toNat = (7 : Fin 8).val ∧ (∃ t, exec (.pop 7#8) State.reset = .next t ∧ t.run = .running) ∧
    (∃ t, exec (.pop 0#8) State.reset = .next t ∧ t.run = .running) ∧
    ∃ t, exec .ret State.reset = .next t ∧ t.run = .running :=
  ⟨by decide, by decide, by decide, by decide, ⟨_, rfl, rfl⟩, ⟨_, rfl, rfl⟩, _, rfl, rfl⟩

/-- A legal operand with the pointer at 1, and both ways not to store: an operand of 8, a pointer at 0. -/
theorem witness_DataAccesses_writes : (7#8).toNat = (7 : Fin 8).val ∧
    (State.reset.writeReg 7 1#8).x[(7 : Fin 8)] ≠ 0x00#8 ∧
    Instr.push 7#8 ∈ [Instr.push 7#8, .call 7#8] ∧ Instr.call 7#8 ∈ [Instr.push 7#8, .call 7#8] ∧
    7 < (8#8).toNat ∧ (State.reset.writeReg 7 0#8).x[(7 : Fin 8)] = 0x00#8 := by
  decide

theorem witness_DataAccesses_same_value : Memory.wf [(255, 1#8)] = true ∧ (255 : Nat) ≤ 255 := by decide

/-- For InstructionLengthFromOpcodeByte, DecodeOfEncodeIsTheInstruction and EncodeOfDecodedIsTheBytes: a well-formed map, a
window that decodes, and the first byte with an operand count of 3. -/
theorem witness_decoding : defaultConfig.wellFormed = true ∧
    decode defaultConfig [0x45#8, 7#8, 255#8] = .ok (.push 7#8) ∧ 0xC0 ≤ (0xC0#8).toNat := by
  decide

theorem witness_OtherOpcodeBytesUnknown : (0xFF#8).toNat ∉ [0x82, 0x47, 0x01, 0xA0, 0xA2, 0xA8, 0xAA, 0xAB, 0x69, 0xAC, 0xAD,
    0xA7, 0x45, 0x46, 0x50, 0x11, 0x54, 0x55, 0x56] := by
  decide

theorem witness_AluBitTakesPartInTheMatch : Opcode.add ≠ .ldi ∧ Opcode.add ≠ .mul := by decide

/-- An HLT at 253, the last address that executes. -/
theorem witness_StepRunsDecodedInstruction : ∃ s : State, s.run = .running ∧ s.pc = 253 ∧
    decode defaultConfig [readByte s.mem s.pc, readByte s.mem (s.pc + 1), readByte s.mem (s.pc + 2)] = .ok .hlt :=
  ⟨(boot 253 [0x01#8]).setPc 253, by decide⟩

theorem witness_FetchAbove253Faults : ∃ s t : State, s.run = .running ∧ s.pc = 254 ∧ t.run = .running ∧ t.pc = 257 :=
  ⟨State.reset.setPc 254, State.reset.setPc 257, by decide⟩

/-- Byte 0x00 is unknown: bit 4 clear. -/
theorem witness_UnknownOpcodeUnderFatal : defaultConfig.unknownOpcode = .fatal ∧ State.reset.run = .running ∧
    State.reset.pc ≤ 253 ∧ (∀ op : Opcode, defaultConfig.opcodeMap op ≠ readByte State.reset.mem State.reset.pc) ∧
    ∀ op : Opcode, ls8OpcodeByte op ≠ readByte State.reset.mem State.reset.pc := by
  refine ⟨rfl, rfl, by decide, ?_, ?_⟩ <;> intro op <;> cases op <;> decide

/-- Bytes 0x00 (bit 4 clear) and 0xD0 (bit 4 set, operand count 3) are unknown. -/
theorem witness_UnknownOpcodeUnderLegacyNop : legacyConfig.unknownOpcode = .legacyNop ∧
    (boot 253 [0xD0#8]).run = .running ∧ ((boot 253 [0xD0#8]).setPc 253).pc ≤ 253 ∧
    (∀ op : Opcode, legacyConfig.opcodeMap op ≠ readByte (boot 253 [0xD0#8]).mem 253) ∧
    (∀ op : Opcode, legacyConfig.opcodeMap op ≠ readByte State.reset.mem 0) ∧
    (readByte State.reset.mem 0).getLsbD 4 = false ∧ (readByte (boot 253 [0xD0#8]).mem 253).getLsbD 4 = true := by
  refine ⟨rfl, rfl, by decide, ?_, ?_, by decide, by decide⟩ <;> intro op <;> cases op <;> decide

theorem witness_StoppedMachineIsFrozen : State.reset.halt.run ≠ .running ∧
    (raise State.reset ⟨.outOfBoundsMem, -1⟩).run ≠ .running := by
  decide

/-- Clause 1 (bit 4 clear), with the largest pc an instruction executes at: LDI at 253. -/
theorem witness_GenericAdvance_clear : legacyConfig.wellFormed = true ∧
    ∃ t, stepWith legacyConfig ((boot 253 [0x82#8, 1#8, 7#8]).setPc 253) = .next t ∧ t.run ≠ .faulted ∧
      (readByte (boot 253 [0x82#8, 1#8, 7#8]).mem 253).getLsbD 4 = false :=
  ⟨by decide, _, rfl, by decide, by decide⟩

/-- The clauses of a set bit 4: an unknown byte, untaken JEQ and JNE, CALL. -/
theorem witness_GenericAdvance_set :
    (∃ t, stepWith legacyConfig (boot 0 [0x10#8]) = .next t ∧ t.run ≠ .faulted ∧ (0x10#8 : Byte).getLsbD 4 = true ∧
      ∀ op : Opcode, legacyConfig.opcodeMap op ≠ 0x10#8) ∧
    (∃ t, stepWith legacyConfig (boot 0 [0x55#8]) = .next t ∧ t.run ≠ .faulted ∧
      decode legacyConfig (bytesAtPc (boot 0 [0x55#8])) = .ok (.jeq 0#8) ∧ State.reset.fl.getLsbD 0 = false) ∧
    (∃ t, stepWith legacyConfig ((boot 0 [0x56#8]).setFl 1#8) = .next t ∧ t.run ≠ .faulted ∧
      decode legacyConfig (bytesAtPc ((boot 0 [0x56#8]).setFl 1#8)) = .ok (.jne 0#8) ∧ (1#8 : Byte).getLsbD 0 = true) ∧
    ∃ t, stepWith legacyConfig (boot 0 [0x50#8]) = .next t ∧ t.run ≠ .faulted ∧
      decode legacyConfig (bytesAtPc (boot 0 [0x50#8])) = .ok (.call 0#8) := by
  refine ⟨⟨_, rfl, by decide, by decide, ?_⟩, ⟨_, rfl, by decide, by decide, by decide⟩,
    ⟨_, rfl, by decide, by decide, by decide⟩, _, rfl, by decide, by decide⟩
  intro op
  cases op <;> decide

/-- For the results of ADD, MUL, AND, OR, XOR, SHL, SHR, CMP (two operands), of NOT, LDI, PRN, JMP, JEQ, JNE (one), and for
AluFamilyIsPureFunctionsOfRegisters and RegisterOperandFaults: `a` and `b` at 7, at 8, and one of each. -/
theorem witness_operands : (7#8).toNat = (7 : Fin 8).val ∧ 7 < (8#8).toNat ∧ (7#8).toNat ≤ 7 ∧ 7 < (255#8).toNat ∧
    Instr.shr 7#8 8#8 ∈ [Instr.add 7#8 8#8, .mul 7#8 8#8, .and 7#8 8#8, .or 7#8 8#8, .xor 7#8 8#8,
      .shl 7#8 8#8, .shr 7#8 8#8, .cmp 7#8 8#8] := by
  decide

/-- The shift counts 8 and 255. -/
theorem witness_AluArithmeticLaws : 8 ≤ (8#8).toNat ∧ 8 ≤ (255#8).toNat := by decide

/-- The three relations CMP distinguishes, and bit 3, the first that is zero. -/
theorem witness_CmpResult : (State.reset.x[(0 : Fin 8)].toNat = State.reset.x[(1 : Fin 8)].toNat) ∧
    (State.reset.x[(7 : Fin 8)].toNat > State.reset.x[(1 : Fin 8)].toNat) ∧
    (State.reset.x[(0 : Fin 8)].toNat < State.reset.x[(7 : Fin 8)].toNat) ∧ (3 : Nat) ≤ 3 := by
  decide

/-- PUSH and CALL with the pointer at 1, the lowest that can move down. -/
theorem witness_PushResult_CallResult : (7#8).toNat = (7 : Fin 8).val ∧
    (State.reset.writeReg 7 1#8).x[(7 : Fin 8)] ≠ 0x00#8 ∧ (State.reset.setPc 253).pc ≤ 253 := by
  decide

/-- POP of another register with the pointer at 254, and POP R7 of the byte 254. -/
theorem witness_PopResult : (0#8).toNat = (0 : Fin 8).val ∧ (0 : Fin 8) ≠ 7 ∧
    (State.reset.writeReg 7 254#8).x[(7 : Fin 8)].toNat < 255 ∧ (7#8).toNat = (7 : Fin 8).val ∧
    (readByte (State.reset.setMem 0xF4 254#8).mem (State.reset.setMem 0xF4 254#8).x[(7 : Fin 8)].toNat).toNat < 255 := by
  decide

theorem witness_RetResult : (State.reset.writeReg 7 254#8).x[(7 : Fin 8)].toNat < 255 := by decide

/-- The pointer at 0 and at 255, and POP R7 of the byte 255. -/
theorem witness_StackBoundFaults : (7#8).toNat = (7 : Fin 8).val ∧ (0#8).toNat = (0 : Fin 8).val ∧ (0 : Fin 8) ≠ 7 ∧
    (State.reset.writeReg 7 0#8).x[(7 : Fin 8)] = 0x00#8 ∧ (State.reset.writeReg 7 255#8).x[(7 : Fin 8)] = 0xFF#8 ∧
    readByte (State.reset.setMem 0xF4 255#8).mem (State.reset.setMem 0xF4 255#8).x[(7 : Fin 8)].toNat = 0xFF#8 := by
  decide

/-- For FaultsArePrecise and FaultCausesAndIndices: a step that faults, within the invariant, for each cause. -/
theorem witness_faults :
    (Inv defaultConfig (State.reset.setPc 255) ∧ (State.reset.setPc 255).run = .running ∧
      ∃ t, stepWith defaultConfig (State.reset.setPc 255) = .next t ∧ t.run = .faulted) ∧
    (Inv defaultConfig (boot 0 [0x47#8, 8#8]) ∧ (boot 0 [0x47#8, 8#8]).run = .running ∧
      ∃ t, stepWith defaultConfig (boot 0 [0x47#8, 8#8]) = .next t ∧ t.run = .faulted) ∧
    (Inv defaultConfig State.reset ∧ State.reset.run = .running ∧
      ∃ t, stepWith defaultConfig State.reset = .next t ∧ t.run = .faulted) :=
  ⟨⟨by decide, by decide, _, rfl, rfl⟩, ⟨by decide, by decide, _, rfl, rfl⟩, by decide, by decide, _, rfl, rfl⟩

theorem witness_UnsupportedOperationNeverRaised : State.reset.fault.cause ≠ .unsupportedOperation ∧
    ∃ t, stepWith defaultConfig State.reset = .next t ∧ t.fault.cause = .unknownOpcode :=
  ⟨by decide, _, rfl, rfl⟩

/-- A register writer that completes and one that faults; register 1 is not the destination 0. -/
theorem witness_RegisterWritersFrame : (∃ t, exec (.shr 0#8 7#8) State.reset = .next t ∧ t.run = .running) ∧
    (∃ t, exec (.shr 8#8 7#8) State.reset = .next t ∧ t.run = .faulted) ∧ (0#8).toNat ≠ (1 : Fin 8).val :=
  ⟨⟨_, rfl, rfl⟩, ⟨_, rfl, rfl⟩, by decide⟩

theorem witness_NonWritersFrame : (∃ t, exec (.jne 7#8) State.reset = .next t ∧ t.run = .running) ∧
    (∃ t, exec (.cmp 7#8 8#8) State.reset = .next t ∧ t.run = .faulted) ∧
    (∃ t, exec .hlt State.reset = .next t ∧ t.run = .halted) ∧ Instr.jne 7#8 ≠ .cmp 7#8 0#8 ∧ Instr.jne 7#8 ≠ .prn 7#8 :=
  ⟨⟨_, rfl, rfl⟩, ⟨_, rfl, rfl⟩, ⟨_, rfl, rfl⟩, by decide, by decide⟩

/-- A PUSH with a slot (the pointer at 1, so the slot is 0) and one without. -/
theorem witness_StackStoreFrame : (∃ t slot, exec (.push 0#8) (State.reset.writeReg 7 1#8) = .next t ∧
      pushAddress (State.reset.writeReg 7 1#8) = .ok slot ∧ slot = 0#8 ∧ 255 ≠ slot.toNat ∧ (0 : Fin 8) ≠ 7) ∧
    ∃ t e, exec (.call 0#8) (State.reset.writeReg 7 0#8) = .next t ∧ pushAddress (State.reset.writeReg 7 0#8) = .error e :=
  ⟨⟨_, _, rfl, rfl, rfl, by decide, by decide⟩, _, _, rfl, rfl⟩

theorem witness_StackLoadFrame : (∃ t, exec (.pop 0#8) State.reset = .next t ∧ t.run = .running) ∧
    (∃ t, exec .ret (State.reset.writeReg 7 255#8) = .next t ∧ t.run = .faulted) ∧ (1 : Fin 8) ≠ 7 ∧
    (0#8).toNat ≠ (1 : Fin 8).val :=
  ⟨⟨_, rfl, rfl⟩, ⟨_, rfl, rfl⟩, by decide, by decide⟩

/-- For EveryStepKeepsInvariant: a state within the invariant and its next state, not a stopped one. -/
theorem witness_EveryStepKeepsInvariant : Inv defaultConfig (boot 0 [0x45#8, 7#8]) ∧
    ∃ t, step (boot 0 [0x45#8, 7#8]) = .next t ∧ stepWith defaultConfig (boot 0 [0x45#8, 7#8]) = .next t ∧ t.run = .running :=
  ⟨by decide, _, rfl, rfl, rfl⟩

/-- A step that changes the flags, an instruction that is no CMP, and a state whose flags are zero. -/
theorem witness_FlagsChangeOnlyAtCompare :
    (∃ t, stepWith defaultConfig (boot 0 [0xA7#8, 0#8, 7#8]) = .next t ∧ t.fl ≠ (boot 0 [0xA7#8, 0#8, 7#8]).fl) ∧
    (Instr.call 7#8).opcode ≠ .cmp ∧ (∃ t, exec (.call 7#8) State.reset = .next t) ∧ (7#8).toNat = (7 : Fin 8).val ∧
    State.reset.fl = 0x00#8 :=
  ⟨⟨_, rfl, by decide⟩, by decide, ⟨_, rfl⟩, by decide, rfl⟩

/-- Steps that emit, store and halt: for OutputGrowsOnlyByPrn, MemoryChangesOnlyByPushAndCall, HaltedOnlyByHlt. -/
theorem witness_changes : (∃ t, stepWith defaultConfig (boot 0 [0x47#8, 7#8]) = .next t ∧ t.out = [0xF4#8]) ∧
    (∃ t, stepWith defaultConfig (boot 0 [0x45#8, 7#8]) = .next t ∧
      readByte t.mem 0xF3 ≠ readByte (boot 0 [0x45#8, 7#8]).mem 0xF3) ∧
    (boot 0 [0x01#8]).run = .running ∧ ∃ t, stepWith defaultConfig (boot 0 [0x01#8]) = .next t ∧ t.run = .halted :=
  ⟨⟨_, rfl, rfl⟩, ⟨_, rfl, by decide⟩, rfl, _, rfl, rfl⟩

/-- Other flag bits with the same E, and a jump that reads E. -/
theorem witness_GreaterAndLessAreNeverRead : (0x06#8).getLsbD 0 = State.reset.fl.getLsbD 0 ∧ 0x06#8 ≠ State.reset.fl ∧
    ∃ t, exec (.jne 7#8) State.reset = .next t ∧ t.pc = 0xF4 :=
  ⟨by decide, by decide, _, rfl, rfl⟩

/-- One instruction for each way the run state and the record go on: left alone, halted, faulted. -/
theorem witness_OutputRunAndFaultAreNeverRead :
    (∃ t, exec (.prn 7#8) State.reset = .next t ∧ t.out = [0xF4#8] ∧ t.run = .running) ∧
    (∃ t, exec .hlt State.reset = .next t ∧ t.run = .halted) ∧
    ∃ t, exec (.prn 8#8) State.reset = .next t ∧ t.run = .faulted :=
  ⟨⟨_, rfl, rfl, rfl⟩, ⟨_, rfl, rfl⟩, _, rfl, rfl⟩

/-- Two registers pushed, one of them twice, with a pointer that just suffices; and a state the pops can start from. -/
theorem witness_PushesThenPopsRestoreRegisters : (7 : Fin 8) ∉ [0, 6, 0] ∧
    [(0 : Fin 8), 6, 0].length ≤ (State.reset.writeReg 7 3#8).x[(7 : Fin 8)].toNat ∧
    ∃ t, execAll [.push 0#8, .push 6#8, .push 0#8] (State.reset.writeReg 7 3#8) = .next t ∧ t.x[(7 : Fin 8)] = 0#8 :=
  ⟨by decide, by decide, _, rfl, by decide⟩

/-- A CALL at 253 with the pointer at 1, and the state it leaves, which RET can start from. -/
theorem witness_CallThenReturnComesBack : (7#8).toNat = (7 : Fin 8).val ∧
    ((State.reset.writeReg 7 1#8).setPc 253).x[(7 : Fin 8)] ≠ 0x00#8 ∧
    ((State.reset.writeReg 7 1#8).setPc 253).pc ≤ 253 ∧
    ∃ t, exec (.call 7#8) ((State.reset.writeReg 7 1#8).setPc 253) = .next t ∧ t.x[(7 : Fin 8)] = 0#8 ∧
      readByte t.mem 0 = 255#8 :=
  ⟨by decide, by decide, by decide, _, rfl, by decide, by decide⟩

end Sys2Proof.Tests
end

section
/-! The checked access primitives (00_scope.md R9). -/

namespace Sys2Proof.Machine

/-- A read at a natural-number address in range gives the cell. -/
theorem memRead_of_le (s : State) {a : Nat} (h : a ≤ 255) : memRead s a = .ok (readByte s.mem a) :=
  memRead_eq_ok.2 ⟨by omega, by omega, by rw [Int.toNat_natCast]⟩

/-- A write at a natural-number address in range writes the cell. -/
theorem memWrite_of_le (s : State) {a : Nat} (h : a ≤ 255) (v : Byte) : memWrite s a v = .ok (s.setMem a v) :=
  memWrite_eq_ok.2 ⟨by omega, by omega, by rw [Int.toNat_natCast]⟩

/-- Settles O6, from what each primitive can answer: the bounds check fails with the index as it stands, and in range
the answer is the register, the cell or the write. -/
theorem checkedAccessPrimitives : Obligations.CheckedAccessPrimitives := by
  unfold Obligations.CheckedAccessPrimitives
  refine ⟨?regAbove, ?regNames, ?readOutside, ?readInside, ?writeOutside, ?writeInside⟩
  case regAbove => exact fun _ h => regIdx_eq_error.2 ⟨h, rfl⟩
  case regNames => exact fun _ _ h => regIdx_eq_ok.2 h
  case readOutside => exact fun _ _ h => memRead_eq_error.2 ⟨h, rfl⟩
  case readInside => exact fun s _ h => memRead_of_le s h
  case writeOutside => exact fun _ _ _ h => memWrite_eq_error.2 ⟨h, rfl⟩
  case writeInside => exact fun s _ v h => memWrite_of_le s h v

end Sys2Proof.Machine
end

section
/-! The memory contract (20_memory.md R40), with what the loader leaves in each cell (70_reset_and_hazards.md R176). -/

namespace Sys2Proof.Machine

/-! ### The loader, cell by cell -/

/-- Every cell of the reset state reads as an unlisted one (10_state.md R34). -/
@[simp] theorem readByte_reset (d : Nat) : readByte State.reset.mem d = 0x00#8 := rfl

/-- The loader leaves every cell outside its range alone. -/
theorem readByte_loadFrom_outside {a d : Nat} {bytes : List Byte} (s : State) (h : d < a ∨ a + bytes.length ≤ d) :
    readByte (loadFrom a bytes s).mem d = readByte s.mem d := by
  induction bytes generalizing a s with
  | nil => rfl
  | cons b rest ih =>
    rw [List.length_cons] at h
    calc readByte (loadFrom (a + 1) rest (s.setMem a b)).mem d
        = readByte (s.setMem a b).mem d := ih _ (by omega)
      _ = readByte s.mem d := readByte_writeByte_other s.mem b (by omega)

/-- The loader puts each byte in its own cell: no later byte of the list reaches it. -/
theorem readByte_loadFrom_inside (a : Nat) {bytes : List Byte} (s : State) {k : Nat} (h : k < bytes.length) :
    readByte (loadFrom a bytes s).mem (a + k) = bytes[k] := by
  induction bytes generalizing a s k with
  | nil => exact absurd h (Nat.not_lt_zero k)
  | cons b rest ih =>
    cases k with
    | zero =>
      calc readByte (loadFrom (a + 1) rest (s.setMem a b)).mem a
          = readByte (s.setMem a b).mem a := readByte_loadFrom_outside _ (.inl (Nat.lt_succ_self a))
        _ = b := readByte_writeByte_same s.mem a b
    | succ k =>
      rw [show a + (k + 1) = a + 1 + k by omega]
      exact ih (a + 1) (s.setMem a b) (Nat.lt_of_succ_lt_succ h)

/-- A launch state exists just for a program that fits, and is then the reset state with the program loaded. -/
theorem loadProgram_eq_next {program : List Byte} {t : State} :
    loadProgram program = .next t ↔ program.length ≤ 256 ∧ t = loadFrom 0 program State.reset := by
  unfold loadProgram
  split
  case isTrue hfits => simp [hfits, eq_comm]
  case isFalse hlong => simp [hlong]

/-- A launch state holds the program's bytes from address 0 on. -/
theorem readByte_launch_inside {program : List Byte} {t : State} (h : loadProgram program = .next t) {k : Nat}
    (hk : k < program.length) : readByte t.mem k = program[k] := by
  obtain ⟨-, rfl⟩ := loadProgram_eq_next.1 h
  simpa using readByte_loadFrom_inside 0 State.reset hk

/-- A launch state holds the reset value past the program. -/
theorem readByte_launch_past {program : List Byte} {t : State} (h : loadProgram program = .next t) {k : Nat}
    (hk : program.length ≤ k) : readByte t.mem k = 0x00#8 := by
  obtain ⟨-, rfl⟩ := loadProgram_eq_next.1 h
  rw [readByte_loadFrom_outside _ (.inr (by omega)), readByte_reset]

/-! ### The contract -/

/-- Settles O7: a read in range gives the cell, so each clause says what a cell holds: after a write by the read-over-write
rules, after launch by the loader's lemmas, after reset by the reset value. -/
theorem memoryReadWriteContract : Obligations.MemoryReadWriteContract := by
  unfold Obligations.MemoryReadWriteContract
  refine ⟨?read, ?write, ?launch, ?reset⟩
  case read => exact fun s _ h => memRead_of_le s h
  case write =>
    intro s a v h
    refine ⟨s.setMem a v, memWrite_of_le s h v, rfl, ?_, fun d hd => readByte_writeByte_other s.mem v hd⟩
    rw [memRead_of_le _ h, State.setMem_mem, readByte_writeByte_same]
  case launch =>
    intro program t ht
    obtain ⟨hfits, -⟩ := loadProgram_eq_next.1 ht
    refine ⟨fun k hk => ?_, fun k hpast hk => ?_⟩
    · rw [memRead_of_le t (by omega), readByte_launch_inside ht hk]
    · rw [memRead_of_le t hk, readByte_launch_past ht hpast]
  case reset =>
    intro k hk
    rw [memRead_of_le _ hk, readByte_reset]

end Sys2Proof.Machine
end

section
/-! The length of an instruction, read from its opcode byte (30_encoding.md R60, R62). -/

namespace Sys2Proof

/-- The operand count field is the byte's quotient by 64 (30_encoding.md R61): that quotient already fits in two bits, so
cutting it to two bits loses nothing. -/
theorem operandCountField_eq_div (ir : Byte) : operandCountField ir = ir.toNat / 64 := by
  have hlt : ir.toNat / 64 < 4 := by omega
  simpa [operandCountField, Nat.shiftRight_eq_div_pow] using hlt

theorem lengthOf_eq_div (ir : Byte) : lengthOf ir = 1 + ir.toNat / 64 := by
  rw [lengthOf, operandCountField_eq_div]

/-- No instruction has three operand bytes (30_encoding.md R64). -/
theorem Opcode.operandCount_le_two (op : Opcode) : op.operandCount ≤ 2 := by
  cases op <;> decide

/-- A well-formed map keeps each instruction's operand count in the top bits of its byte (30_encoding.md R67). -/
theorem toNat_opcodeMap_div {c : Config} (hc : c.wellFormed = true) (op : Opcode) :
    (c.opcodeMap op).toNat / 64 = op.operandCount := by
  rw [← operandCountField_eq_div, (Config.wellFormed_bits hc op).1]

/-- Under a well-formed map no instruction's byte has an operand count of 3 (30_encoding.md R62). -/
theorem opcodeOf_eq_none_of_ge {c : Config} (hc : c.wellFormed = true) {ir : Byte} (h : 0xC0 ≤ ir.toNat) :
    opcodeOf c ir = none := by
  refine opcodeOf_eq_none.2 fun op hop => ?_
  have hcount : ir.toNat / 64 ≤ 2 := by
    rw [← hop, toNat_opcodeMap_div hc]
    exact op.operandCount_le_two
  omega

/-- A window that decodes starts with the opcode byte of the instruction it decodes to. -/
theorem opcodeMap_opcode_of_decodeWindow {c : Config} {w : Window} {i : Instr} (h : decodeWindow c w = .ok i) :
    c.opcodeMap i.opcode = w.ir := by
  obtain ⟨op, hop, rfl⟩ := decodeWindow_eq_ok.1 h
  rw [opcode_instrOf, opcodeMap_of_opcodeOf hop]

/-- An encoding's length is the one its opcode byte gives. -/
theorem length_encode_eq_div {c : Config} (hc : c.wellFormed = true) (i : Instr) :
    (encode c i).length = 1 + (c.opcodeMap i.opcode).toNat / 64 := by
  rw [length_encode, toNat_opcodeMap_div hc]

end Sys2Proof

namespace Sys2Proof.Machine

/-- Settles O10: a well-formed map keeps each instruction's operand count in the top bits of its byte, and no count is 3. -/
theorem instructionLengthFromOpcodeByte : Obligations.InstructionLengthFromOpcodeByte := by
  unfold Obligations.InstructionLengthFromOpcodeByte
  intro c hc
  refine ⟨fun i => ?encoding, fun ir opa opb i h => ?decoded, fun ir opa opb h => ?unknown⟩
  case encoding =>
    have hlen := length_encode_eq_div hc i
    refine ⟨_, _, rfl, rfl, ?_, ?_, lengthOf_eq_div _, ?_⟩
    · rw [length_operands, toNat_opcodeMap_div hc]
    · rw [hlen, lengthOf_eq_div]
    · rw [lengthOf_eq_div, toNat_opcodeMap_div hc]
      have := i.opcode.operandCount_le_two
      omega
  case decoded =>
    rw [length_encode_eq_div hc, opcodeMap_opcode_of_decodeWindow h]
  case unknown => exact decodeWindow_eq_error.2 ⟨opcodeOf_eq_none_of_ge hc h, rfl⟩

end Sys2Proof.Machine
end

section
/-! Decoding undoes encoding and encoding undoes decoding (30_encoding.md sections 2 and 3), and the default opcode bytes. -/

namespace Sys2Proof

/-- A list of the three fetched bytes, or more, decodes as its window does. -/
theorem decode_cons (c : Config) (ir opa opb : Byte) (rest : List Byte) :
    decode c (ir :: opa :: opb :: rest) = decodeWindow c ⟨ir, opa, opb⟩ := rfl

/-- Under a well-formed map the byte of an instruction's row, with any operand bytes, decodes to that instruction. -/
theorem decodeWindow_opcodeMap {c : Config} (hc : c.wellFormed = true) (op : Opcode) (opa opb : Byte) :
    decodeWindow c ⟨c.opcodeMap op, opa, opb⟩ = .ok (instrOf op opa opb) :=
  decodeWindow_eq_ok.2 ⟨op, opcodeOf_opcodeMap hc op, rfl⟩

/-- Decoding undoes encoding, whatever two bytes follow. -/
theorem decode_encode_append {c : Config} (hc : c.wellFormed = true) (i : Instr) (p q : Byte) :
    decode c (encode c i ++ [p, q]) = .ok i := by
  obtain ⟨opa, opb, rest, hops, hi⟩ := instrOf_operands i p q
  calc decode c (encode c i ++ [p, q])
      = decode c (c.opcodeMap i.opcode :: (i.operands ++ [p, q])) := rfl
    _ = .ok (instrOf i.opcode opa opb) := by rw [hops, decode_cons, decodeWindow_opcodeMap hc]
    _ = .ok i := by rw [hi]

/-- Encoding undoes decoding, over the bytes that the window's opcode byte counts. -/
theorem encode_of_decodeWindow {c : Config} (hc : c.wellFormed = true) {w : Window} {i : Instr}
    (h : decodeWindow c w = .ok i) : encode c i = [w.ir, w.opa, w.opb].take (lengthOf w.ir) := by
  obtain ⟨op, hop, rfl⟩ := decodeWindow_eq_ok.1 h
  have hir : c.opcodeMap op = w.ir := opcodeMap_of_opcodeOf hop
  have hlen : lengthOf w.ir = op.operandCount + 1 := by
    rw [← hir, lengthOf, (Config.wellFormed_bits hc op).1, Nat.add_comm]
  rw [encode, opcode_instrOf, operands_instrOf, hir, hlen, List.take_succ_cons]

/-- A default opcode byte with any operand bytes decodes to its instruction. -/
theorem decode_ls8OpcodeByte (op : Opcode) (opa opb : Byte) :
    decode defaultConfig [ls8OpcodeByte op, opa, opb] = .ok (instrOf op opa opb) :=
  decodeWindow_opcodeMap defaultConfig_wellFormed op opa opb

/-- A window whose first byte is no instruction's decodes to nothing. -/
theorem decode_of_unknown {c : Config} {ir : Byte} (h : ∀ op, c.opcodeMap op ≠ ir) (opa opb : Byte) :
    decode c [ir, opa, opb] = .error (.unknownOpcode ir) :=
  decodeWindow_eq_error.2 ⟨opcodeOf_eq_none.2 h, rfl⟩

/-! ### The fields of the opcode byte as digits -/

theorem toNat_aluFlagBit (ir : Byte) : (aluFlagBit ir).toNat = ir.toNat / 32 % 2 :=
  Nat.toNat_testBit ir.toNat 5

theorem toNat_setsPcBit (ir : Byte) : (setsPcBit ir).toNat = ir.toNat / 16 % 2 :=
  Nat.toNat_testBit ir.toNat 4

theorem identifierField_eq_mod (ir : Byte) : identifierField ir = ir.toNat % 16 := by
  simp [identifierField]

end Sys2Proof

namespace Sys2Proof.Machine

/-- Settles O14: the lookup finds the instruction at its own byte, and its operand bytes come first after that. -/
theorem decodeOfEncodeIsTheInstruction : Obligations.DecodeOfEncodeIsTheInstruction := by
  unfold Obligations.DecodeOfEncodeIsTheInstruction
  exact ⟨fun _ i p q hc => decode_encode_append hc i p q,
    fun i p q => decode_encode_append defaultConfig_wellFormed i p q⟩

/-- Settles O15: the lookup keeps the whole opcode byte, and a well-formed map makes its count the row's. -/
theorem encodeOfDecodedIsTheBytes : Obligations.EncodeOfDecodedIsTheBytes := by
  unfold Obligations.EncodeOfDecodedIsTheBytes
  exact fun _ ir opa opb _ hc h => encode_of_decodeWindow (w := ⟨ir, opa, opb⟩) hc h

/-- Settles O9: the fields are the digits of the byte to the bases 64, 32 and 16. -/
theorem opcodeByteLayout : Obligations.OpcodeByteLayout := by
  unfold Obligations.OpcodeByteLayout
  intro ir
  rw [toNat_aluFlagBit, toNat_setsPcBit, identifierField_eq_mod, lengthOf, operandCountField_eq_div]
  have hbyte : ir.toNat < 256 := ir.isLt
  exact ⟨by omega, by omega, by omega, rfl⟩

/-- Settles O11: each byte written out is the default map's byte of its row. -/
theorem opcodeMapWordsDecode : Obligations.OpcodeMapWordsDecode := by
  unfold Obligations.OpcodeMapWordsDecode
  intro a b
  have row (op : Opcode) := decode_ls8OpcodeByte op a b
  exact ⟨row .ldi, row .prn, row .hlt, row .add, row .mul, row .and, row .or, row .xor, row .not, row .shl, row .shr,
    row .cmp, row .push, row .pop, row .call, row .ret, row .jmp, row .jeq, row .jne⟩

/-- Settles O12: a byte the map gives to an instruction is one of the 19. -/
theorem otherOpcodeBytesUnknown : Obligations.OtherOpcodeBytesUnknown := by
  unfold Obligations.OtherOpcodeBytesUnknown
  intro ir opa opb hnot
  refine decode_of_unknown (fun op hop => hnot ?_) opa opb
  subst hop
  cases op <;> decide

/-- Settles O13: for each row, the flipped byte is looked up in the table of 19 bytes. -/
theorem aluBitTakesPartInTheMatch : Obligations.AluBitTakesPartInTheMatch := by
  unfold Obligations.AluBitTakesPartInTheMatch
  refine ⟨fun op => ?_, by decide, by decide⟩
  cases op <;> decide

end Sys2Proof.Machine
end

section
/-! What a completed handler wrote, field by field: the cases that `handlerOf_ok_unchanged` leaves out. -/

namespace Sys2Proof.Machine

theorem handlerOf_ldi_eq_ok {a imm : Byte} {s u : State} :
    handlerOf (.ldi a imm) s = .ok u ↔ ∃ ra : Fin 8, a.toNat = ra.val ∧ s.writeReg ra imm = u := by
  simp only [handlerOf, withReg_eq_ok, Except.ok.injEq, immediate]

theorem handlerOf_not_eq_ok {a : Byte} {s u : State} :
    handlerOf (.not a) s = .ok u ↔ ∃ ra : Fin 8, a.toNat = ra.val ∧ s.writeReg ra (aluNot (s.readReg ra)) = u := by
  simp only [handlerOf, withReg_eq_ok, Except.ok.injEq]

theorem handlerOf_cmp_eq_ok {a b : Byte} {s u : State} :
    handlerOf (.cmp a b) s = .ok u ↔ ∃ ra rb : Fin 8, a.toNat = ra.val ∧ b.toNat = rb.val ∧
      s.setFl (compareFlags (s.readReg ra) (s.readReg rb)) = u := by
  simp only [handlerOf, withRegs_eq_ok, Except.ok.injEq]

theorem handlerOf_prn_eq_ok {a : Byte} {s u : State} :
    handlerOf (.prn a) s = .ok u ↔ ∃ ra : Fin 8, a.toNat = ra.val ∧ s.emit (s.readReg ra) = u := by
  simp only [handlerOf, withReg_eq_ok, Except.ok.injEq]

theorem handlerOf_push_eq_ok {a : Byte} {s u : State} :
    handlerOf (.push a) s = .ok u ↔ ∃ ra : Fin 8, a.toNat = ra.val ∧ s.sp ≠ 0x00#8 ∧
      u = (s.writeReg spIndex (s.sp - 1)).setMem (s.sp - 1).toNat ((s.writeReg spIndex (s.sp - 1)).readReg ra) := by
  simp only [handlerOf, withReg_eq_ok, pushWith_eq_ok]

theorem handlerOf_call_eq_ok {a : Byte} {s u : State} :
    handlerOf (.call a) s = .ok u ↔ ∃ ra : Fin 8, a.toNat = ra.val ∧ s.sp ≠ 0x00#8 ∧
      u = ((s.writeReg spIndex (s.sp - 1)).setMem (s.sp - 1).toNat (returnAddress s)).jumpTo ra := by
  simp only [handlerOf, withReg_eq_ok, callTo_eq_ok, pushWith_eq_ok]
  constructor
  · rintro ⟨ra, ha, v, ⟨hsp, rfl⟩, rfl⟩
    exact ⟨ra, ha, hsp, rfl⟩
  · rintro ⟨ra, ha, hsp, rfl⟩
    exact ⟨ra, ha, _, ⟨hsp, rfl⟩, rfl⟩

theorem handlerOf_jmp_eq_ok {a : Byte} {s u : State} :
    handlerOf (.jmp a) s = .ok u ↔ ∃ ra : Fin 8, a.toNat = ra.val ∧ s.jumpTo ra = u := by
  simp only [handlerOf, withReg_eq_ok, Except.ok.injEq]

theorem handlerOf_jeq_eq_ok {a : Byte} {s u : State} :
    handlerOf (.jeq a) s = .ok u ↔ ∃ ra : Fin 8, a.toNat = ra.val ∧
      u = if flagE s.fl then s.jumpTo ra else s.setPc (s.pc + 2) := by
  simp only [handlerOf, withReg_eq_ok, jumpIf_eq_ok]

theorem handlerOf_jne_eq_ok {a : Byte} {s u : State} :
    handlerOf (.jne a) s = .ok u ↔ ∃ ra : Fin 8, a.toNat = ra.val ∧
      u = if flagE s.fl then s.setPc (s.pc + 2) else s.jumpTo ra := by
  simp only [handlerOf, withReg_eq_ok, jumpIf_eq_ok, Bool.not_eq_true', ← Bool.not_eq_true, ite_not]

/-- A jump goes to an address of memory. -/
theorem State.jumpTo_pc_le (s : State) (r : Fin 8) : (s.jumpTo r).pc ≤ 255 :=
  Nat.le_of_lt_succ (s.readReg r).isLt

/-- The run state: only HLT writes it. -/
theorem handlerOf_ok_run {i : Instr} {s u : State} (h : handlerOf i s = .ok u) :
    (i ≠ .hlt ∧ u.run = s.run) ∨ (i = .hlt ∧ u.run = .halted) := by
  obtain ⟨-, hrun, -⟩ := handlerOf_ok_unchanged h
  cases i with
  | hlt =>
    cases h
    exact .inr ⟨rfl, rfl⟩
  | _ => exact .inl ⟨nofun, hrun nofun⟩

/-- The flags: only CMP writes them. -/
theorem handlerOf_ok_fl {i : Instr} {s u : State} (h : handlerOf i s = .ok u) :
    u.fl = s.fl ∨ ∃ (a b : Byte) (ra rb : Fin 8), i = .cmp a b ∧ a.toNat = ra.val ∧ b.toNat = rb.val ∧
      u.fl = compareFlags (s.readReg ra) (s.readReg rb) := by
  obtain ⟨-, -, hfl, -⟩ := handlerOf_ok_unchanged h
  cases i with
  | cmp a b =>
    obtain ⟨ra, rb, ha, hb, rfl⟩ := handlerOf_cmp_eq_ok.1 h
    exact .inr ⟨a, b, ra, rb, rfl, ha, hb, rfl⟩
  | _ => exact .inl (hfl nofun)

/-- The output log: only PRN writes it. -/
theorem handlerOf_ok_out {i : Instr} {s u : State} (h : handlerOf i s = .ok u) :
    u.out = s.out ∨ ∃ (a : Byte) (ra : Fin 8), i = .prn a ∧ a.toNat = ra.val ∧ u.out = s.out ++ [s.readReg ra] := by
  obtain ⟨-, -, -, hout, -⟩ := handlerOf_ok_unchanged h
  cases i with
  | prn a =>
    obtain ⟨ra, ha, rfl⟩ := handlerOf_prn_eq_ok.1 h
    exact .inr ⟨a, ra, rfl, ha, rfl⟩
  | _ => exact .inl (hout nofun)

/-- Memory: only PUSH and CALL write it, at the cell below a pointer that is not 0. -/
theorem handlerOf_ok_mem {i : Instr} {s u : State} (h : handlerOf i s = .ok u) :
    u.mem = s.mem ∨ ((∃ a, i = .push a ∨ i = .call a) ∧ s.sp ≠ 0x00#8 ∧
      ∃ v, u.mem = writeByte s.mem (s.sp - 1).toNat v) := by
  obtain ⟨-, -, -, -, hmem, -⟩ := handlerOf_ok_unchanged h
  cases i with
  | push a =>
    obtain ⟨ra, -, hsp, rfl⟩ := handlerOf_push_eq_ok.1 h
    exact .inr ⟨⟨a, .inl rfl⟩, hsp, _, rfl⟩
  | call a =>
    obtain ⟨ra, -, hsp, rfl⟩ := handlerOf_call_eq_ok.1 h
    exact .inr ⟨⟨a, .inr rfl⟩, hsp, _, rfl⟩
  | _ => exact .inl (hmem nofun nofun)

/-- The pc of an instruction with the sets_pc bit: a byte, or past the two bytes of a jump that is not taken. -/
theorem handlerOf_ok_pc {i : Instr} {s u : State} (h : handlerOf i s = .ok u) (hset : i.opcode.setsPc = true) :
    u.pc ≤ 255 ∨ u.pc = s.pc + 2 := by
  cases i with
  | call a =>
    obtain ⟨ra, -, -, rfl⟩ := handlerOf_call_eq_ok.1 h
    exact .inl (State.jumpTo_pc_le _ ra)
  | ret =>
    obtain ⟨-, rfl⟩ := returnFrom_eq_ok.1 h
    exact .inl (Nat.le_of_lt_succ (BitVec.isLt _))
  | jmp a =>
    obtain ⟨ra, -, rfl⟩ := handlerOf_jmp_eq_ok.1 h
    exact .inl (State.jumpTo_pc_le s ra)
  | jeq a =>
    obtain ⟨ra, -, rfl⟩ := handlerOf_jeq_eq_ok.1 h
    split
    · exact .inl (State.jumpTo_pc_le s ra)
    · exact .inr rfl
  | jne a =>
    obtain ⟨ra, -, rfl⟩ := handlerOf_jne_eq_ok.1 h
    split
    · exact .inr rfl
    · exact .inl (State.jumpTo_pc_le s ra)
  | _ => cases hset

/-- An instruction that completes moves the pc to a byte, or past its own bytes. -/
theorem pc_of_completed {i : Instr} {s u : State}
    (h : handlerOf i (advance i.opcode.operandCount i.opcode.setsPc s) = .ok u) :
    (i.opcode.setsPc = false ∧ u.pc = s.pc + 1 + i.opcode.operandCount) ∨
    (i.opcode.setsPc = true ∧ (u.pc ≤ 255 ∨ u.pc = s.pc + 2)) := by
  cases hset : i.opcode.setsPc with
  | false =>
    obtain ⟨-, -, -, -, -, hpc⟩ := handlerOf_ok_unchanged h
    rw [hset] at hpc
    exact .inl ⟨rfl, hpc rfl⟩
  | true =>
    rw [hset, advance_setsPc] at h
    exact .inr ⟨rfl, handlerOf_ok_pc h hset⟩

/-- What a handler raises is a real fault: code 1 or code 2. -/
theorem handlerOf_error_cause {i : Instr} {s : State} {e : Raised} (h : handlerOf i s = .error e) :
    e.cause = .outOfBoundsMem ∨ e.cause = .outOfBoundsReg := by
  rcases handlerOf_error_causes h with ⟨d, -, -, rfl⟩ | rfl | rfl
  · exact .inr rfl
  · exact .inl rfl
  · exact .inl rfl

end Sys2Proof.Machine
end

section
/-! What a step can do, with the reason for each fault (40_cycle_dispatch.md R80 to R90): the inversion that every
whole-machine rule goes through. -/

namespace Sys2Proof.Machine

/-- The reasons a running step raises: the fetch, the decoded instruction's handler, or an unknown byte under `fatal`. -/
inductive StepRaises (c : Config) (s : State) : Raised → Prop
  | fetch (hpc : 254 ≤ s.pc) : StepRaises c s ⟨.outOfBoundsMem, max (s.pc : Int) 256⟩
  | handler {i : Instr} {e : Raised} (hd : decode c (bytesAtPc s) = .ok i)
      (h : handlerOf i (advance i.opcode.operandCount i.opcode.setsPc s) = .error e) : StepRaises c s e
  | unknown (hp : c.unknownOpcode = .fatal) (hu : ∀ op, c.opcodeMap op ≠ readByte s.mem s.pc) :
      StepRaises c s ⟨.unknownOpcode, (readByte s.mem s.pc).toNat⟩

/-- The next states of a step: the same state where the machine has stopped; a fault taken from the state the cycle began
in; what the decoded instruction's handler completed with; or the bare advance of an unknown byte under `legacy_nop`. -/
inductive StepOutcome (c : Config) (s : State) : State → Prop
  | stopped (hr : s.run ≠ .running) : StepOutcome c s s
  | raised {e : Raised} (hr : s.run = .running) (he : StepRaises c s e) : StepOutcome c s (raise s e)
  | completed {i : Instr} {t : State} (hr : s.run = .running) (hpc : s.pc ≤ 253)
      (hd : decode c (bytesAtPc s) = .ok i)
      (h : handlerOf i (advance i.opcode.operandCount i.opcode.setsPc s) = .ok t) : StepOutcome c s t
  | skipped (hr : s.run = .running) (hpc : s.pc ≤ 253) (hp : c.unknownOpcode = .legacyNop)
      (hu : ∀ op, c.opcodeMap op ≠ readByte s.mem s.pc) :
      StepOutcome c s (advance (operandCountField (readByte s.mem s.pc)) (setsPcBit (readByte s.mem s.pc)) s)

theorem stepOutcome_of_next {c : Config} {s t : State} (h : stepWith c s = .next t) : StepOutcome c s t := by
  rcases stepWith_cases h with ⟨hr, rfl⟩ | ⟨hr, hpc, rfl⟩ | ⟨hr, hpc, i, hd, hexec⟩ |
    ⟨hr, hpc, hnone, ⟨hp, rfl⟩ | ⟨hp, rfl⟩⟩
  · exact .stopped hr
  · exact .raised hr (.fetch hpc)
  · rcases exec_eq_next.1 hexec with hok | ⟨e, herr, rfl⟩
    · exact .completed hr hpc hd hok
    · exact .raised hr (.handler hd herr)
  · exact .raised hr (.unknown hp (opcodeOf_eq_none.1 hnone))
  · exact .skipped hr hpc hp (opcodeOf_eq_none.1 hnone)

/-- No step raises the causes that are never recorded: `noFault`, and `unsupportedOperation` (60_exceptions.md R155). -/
theorem StepRaises.cause_ne {c : Config} {s : State} {e : Raised} (h : StepRaises c s e) :
    e.cause ≠ .noFault ∧ e.cause ≠ .unsupportedOperation := by
  cases h with
  | fetch | unknown => exact ⟨nofun, nofun⟩
  | handler hd h =>
    rcases handlerOf_error_cause h with hc | hc <;> rw [hc] <;> exact ⟨nofun, nofun⟩

end Sys2Proof.Machine
end

section
/-! The invariant of 10_state.md section 10 is kept by every step. -/

namespace Sys2Proof.Machine

theorem legalFlags_compareFlags (va vb : Byte) : legalFlags (compareFlags va vb) = true := by
  rw [compareFlags_eq]
  split_ifs <;> rfl

/-- A handler stores at most one cell, at a byte address, so canonical memory stays canonical. -/
theorem handlerOf_keeps_wf {i : Instr} {s u : State} (h : handlerOf i s = .ok u) (hwf : s.mem.wf = true) :
    u.mem.wf = true := by
  rcases handlerOf_ok_mem h with hmem | ⟨-, -, v, hmem⟩ <;> rw [hmem]
  · exact hwf
  · exact wf_writeByte v hwf (Nat.le_of_lt_succ (BitVec.isLt _))

theorem handlerOf_keeps_legalFlags {i : Instr} {s u : State} (h : handlerOf i s = .ok u)
    (hfl : legalFlags s.fl = true) : legalFlags u.fl = true := by
  rcases handlerOf_ok_fl h with hsame | ⟨-, -, ra, rb, -, -, -, hcmp⟩
  · rw [hsame, hfl]
  · rw [hcmp, legalFlags_compareFlags]

/-- A machine that runs on, or halts, from a state without a fault has none. -/
theorem handlerOf_keeps_faultAgrees {i : Instr} {s u : State} (h : handlerOf i s = .ok u) (hr : s.run = .running)
    (hf : FaultAgrees s) : FaultAgrees u := by
  obtain ⟨hfault, -⟩ := handlerOf_ok_unchanged h
  have hnone : s.fault = ⟨.noFault, 0, 0⟩ := by simpa [FaultAgrees, hr] using hf
  have hrun : u.run ≠ .faulted := by
    rcases handlerOf_ok_run h with ⟨-, hu⟩ | ⟨-, hu⟩ <;> simp [hu, hr]
  simpa [FaultAgrees, hrun, hfault] using hnone

/-- The pc after an instruction at 253 or below is at most 256, the bound of `fatal`. -/
theorem pc_le_of_completed {i : Instr} {s u : State} (hpc : s.pc ≤ 253)
    (h : handlerOf i (advance i.opcode.operandCount i.opcode.setsPc s) = .ok u) : u.pc ≤ 256 := by
  have hcount := i.opcode.operandCount_le_two
  rcases pc_of_completed h with ⟨-, hu⟩ | ⟨-, hu | hu⟩ <;> omega

theorem le_pcBound (p : UnknownOpcodePolicy) : 256 ≤ pcBound p := by cases p <;> decide

/-- The bare advance moves the pc by at most 4. -/
theorem pc_advance_field_le (ir : Byte) (b : Bool) (s : State) :
    (advance (operandCountField ir) b s).pc ≤ s.pc + 4 := by
  have hcount : operandCountField ir ≤ 3 := by
    have := ir.isLt
    rw [operandCountField_eq_div]
    omega
  cases b with
  | true => exact Nat.le_add_right _ 4
  | false =>
    rw [advance_pc, State.setPc_pc]
    omega

theorem inv_of_stepOutcome {c : Config} {s t : State} (hinv : Inv c s) (h : StepOutcome c s t) : Inv c t := by
  obtain ⟨hwf, hbound, hfl, hf⟩ := hinv
  cases h with
  | stopped => exact ⟨hwf, hbound, hfl, hf⟩
  | raised hr he =>
    obtain ⟨hne, hne'⟩ := he.cause_ne
    exact ⟨hwf, hbound, hfl, by simp [FaultAgrees, hne, hne']⟩
  | completed hr hpc hd h =>
    exact ⟨handlerOf_keeps_wf h (by simpa using hwf), (pc_le_of_completed hpc h).trans (le_pcBound _),
      handlerOf_keeps_legalFlags h (by simpa using hfl),
      handlerOf_keeps_faultAgrees h (by simpa using hr) (by simpa [FaultAgrees, hr] using hf)⟩
  | skipped hr hpc hp hu =>
    have hnop : pcBound c.unknownOpcode = 257 := by rw [hp]; rfl
    have hadv := pc_advance_field_le (readByte s.mem s.pc) (setsPcBit (readByte s.mem s.pc)) s
    exact ⟨by simpa using hwf, by omega, by simpa using hfl, by simpa [FaultAgrees, hr] using hf⟩

/-- Settles O46, over the four outcomes of a step: only a fault writes the record, and a handler writes a cell at a byte
address, a comparison's flags, and a pc within three of one up to 253. -/
theorem everyStepKeepsInvariant : Obligations.EveryStepKeepsInvariant := by
  unfold Obligations.EveryStepKeepsInvariant
  exact ⟨fun _ _ _ hinv h => inv_of_stepOutcome hinv (stepOutcome_of_next h),
    fun _ _ hinv h => inv_of_stepOutcome hinv (stepOutcome_of_next h)⟩

/-! ### Reset and launch -/

/-- Settles O1: the reset state's fields, read off its definition. -/
theorem resetStateValues : Obligations.ResetStateValues := by
  unfold Obligations.ResetStateValues
  exact ⟨by decide, rfl, rfl, rfl, rfl, fun a _ => readByte_reset a, rfl, rfl⟩

theorem inv_reset (c : Config) : Inv c State.reset := ⟨wf_reset, Nat.zero_le _, rfl, rfl⟩

/-- Settles O2: empty memory is canonical and the pc is 0, within either policy's bound. -/
theorem resetMeetsInvariant : Obligations.ResetMeetsInvariant := by
  unfold Obligations.ResetMeetsInvariant
  exact inv_reset

/-- The loader writes memory and nothing else. -/
theorem loadFrom_eq (a : Nat) (bytes : List Byte) (s : State) :
    loadFrom a bytes s = { s with mem := (loadFrom a bytes s).mem } := by
  induction bytes generalizing a s with
  | nil => rfl
  | cons b rest ih => exact ih (a + 1) (s.setMem a b)

/-- The loader keeps the canonical form while it stays within the 256 cells. -/
theorem wf_loadFrom {a : Nat} {bytes : List Byte} {s : State} (h : a + bytes.length ≤ 256) (hwf : s.mem.wf = true) :
    (loadFrom a bytes s).mem.wf = true := by
  induction bytes generalizing a s with
  | nil => exact hwf
  | cons b rest ih =>
    rw [List.length_cons] at h
    exact ih (by omega) (wf_writeByte b hwf (by omega))

/-- Settles O3: the loader writes only memory, and its cells are known one by one. -/
theorem launchStateOfProgram : Obligations.LaunchStateOfProgram := by
  unfold Obligations.LaunchStateOfProgram
  refine fun program => ⟨fun hfits => ?fits, fun hlong => ?long⟩
  case fits =>
    have hload : loadProgram program = .next (loadFrom 0 program State.reset) :=
      loadProgram_eq_next.2 ⟨hfits, rfl⟩
    exact ⟨_, hload, loadFrom_eq 0 program State.reset, fun _ hk => readByte_launch_inside hload hk,
      fun _ hk => readByte_launch_past hload hk⟩
  case long => exact if_neg (by omega)

/-- Settles O4: the loader keeps the canonical form and writes no other field of the reset state. -/
theorem launchMeetsInvariant : Obligations.LaunchMeetsInvariant := by
  unfold Obligations.LaunchMeetsInvariant
  intro c program t hload
  obtain ⟨hfits, rfl⟩ := loadProgram_eq_next.1 hload
  obtain ⟨-, hbound, hfl, hf⟩ := inv_reset c
  have hwf := wf_loadFrom (a := 0) (bytes := program) (by omega) wf_reset
  rw [loadFrom_eq]
  exact ⟨hwf, hbound, hfl, hf⟩

/-! ### The host -/

/-- A started session's step is the core's step. -/
theorem sessionStep_started {c : Config} {s t : State} (h : stepWith c s = .next t) :
    sessionStep c ⟨.started, s⟩ = .next ⟨.started, t⟩ := by
  simp [sessionStep, h]

/-- Settles O5: one case of `hostMove` for each move and phase, a load split at address 255. -/
theorem hostMovesAndWhenTheyExist : Obligations.HostMovesAndWhenTheyExist := by
  unfold Obligations.HostMovesAndWhenTheyExist
  refine ⟨fun _ => rfl, ?loadInside, ?loadOutside, fun _ _ _ => rfl, fun _ => rfl, fun _ => rfl, fun _ _ => rfl,
    fun _ _ _ h => sessionStep_started h⟩
  case loadInside => exact fun _ _ _ h => if_pos h
  case loadOutside => exact fun _ _ _ h => if_neg (by omega)

end Sys2Proof.Machine
end

section
/-! The cycle (40_cycle_dispatch.md): what is executed, what an unknown byte does, and how the pc moves. -/

namespace Sys2Proof.Machine

/-- A running step whose bytes decode to `i` is `exec i`. -/
theorem stepWith_of_decoded {c : Config} {s : State} {i : Instr} (hr : s.run = .running) (hpc : s.pc ≤ 253)
    (hd : decode c (bytesAtPc s) = .ok i) : stepWith c s = exec i s := by
  rw [stepWith_running hr, cycle_of_decoded hpc hd]

/-- Settles O16: the running cycle fetches the three bytes at the pc and dispatches what they decode to. -/
theorem stepRunsDecodedInstruction : Obligations.StepRunsDecodedInstruction := by
  unfold Obligations.StepRunsDecodedInstruction
  exact ⟨fun _ _ _ hr hpc hd => stepWith_of_decoded hr hpc hd, fun _ _ hr hpc hd => stepWith_of_decoded hr hpc hd⟩

/-- Settles O17: the fetch raises with the lowest address out of range, the larger of the pc and 256. -/
theorem fetchAbove253Faults : Obligations.FetchAbove253Faults := by
  unfold Obligations.FetchAbove253Faults
  intro c s hr hpc
  have hmax : max (s.pc : Int) 256 = if s.pc ≤ 256 then 256 else (s.pc : Int) := by
    split <;> omega
  rw [stepWith_running hr, cycle_of_fetch_above c hpc, hmax]
  rfl

/-- A running step at a byte that is no instruction's. -/
theorem stepWith_of_unknown {c : Config} {s : State} (hr : s.run = .running) (hpc : s.pc ≤ 253)
    (hu : ∀ op, c.opcodeMap op ≠ readByte s.mem s.pc) :
    stepWith c s = unknownOpcodeCycle c.unknownOpcode (readByte s.mem s.pc) s := by
  rw [stepWith_running hr, cycle_of_unknown hpc (opcodeOf_eq_none.2 hu)]

/-- Under `fatal` an unknown byte is raised with the byte as index. -/
theorem stepWith_of_unknown_fatal {c : Config} {s : State} (hp : c.unknownOpcode = .fatal) (hr : s.run = .running)
    (hpc : s.pc ≤ 253) (hu : ∀ op, c.opcodeMap op ≠ readByte s.mem s.pc) :
    stepWith c s = .next (raise s ⟨.unknownOpcode, (readByte s.mem s.pc).toNat⟩) := by
  rw [stepWith_of_unknown hr hpc hu, hp]
  rfl

/-- Settles O18: the unknown byte's cycle under `fatal`, and `fatal` is the default policy. -/
theorem unknownOpcodeUnderFatal : Obligations.UnknownOpcodeUnderFatal := by
  unfold Obligations.UnknownOpcodeUnderFatal
  exact ⟨fun _ _ hp hr hpc hu => stepWith_of_unknown_fatal hp hr hpc hu,
    fun _ hr hpc hu => stepWith_of_unknown_fatal (c := defaultConfig) rfl hr hpc hu⟩

/-- The advance computed from an opcode byte, by its bit 4. -/
theorem advance_of_bit_clear {ir : Byte} (h : ir.getLsbD 4 = false) (s : State) :
    advance (operandCountField ir) (setsPcBit ir) s = s.setPc (s.pc + 1 + ir.toNat / 64) := by
  rw [setsPcBit, h, advance_pc, operandCountField_eq_div]

theorem advance_of_bit_set {ir : Byte} (h : ir.getLsbD 4 = true) (s : State) :
    advance (operandCountField ir) (setsPcBit ir) s = s := by
  rw [setsPcBit, h, advance_setsPc]

/-- Settles O19: under `legacy_nop` the advance computed from the byte is the whole cycle. -/
theorem unknownOpcodeUnderLegacyNop : Obligations.UnknownOpcodeUnderLegacyNop := by
  unfold Obligations.UnknownOpcodeUnderLegacyNop
  intro c s hp hr hpc hu
  have hstep : stepWith c s =
      .next (advance (operandCountField (readByte s.mem s.pc)) (setsPcBit (readByte s.mem s.pc)) s) := by
    rw [stepWith_of_unknown hr hpc hu, hp]
    rfl
  refine ⟨fun hclear => ?clear, fun hset => ?set⟩
  case clear =>
    rw [hstep, advance_of_bit_clear hclear]
    rfl
  case set => rw [hstep, advance_of_bit_set hset]

/-- Settles O20: only a running machine has a cycle. -/
theorem stoppedMachineIsFrozen : Obligations.StoppedMachineIsFrozen := by
  unfold Obligations.StoppedMachineIsFrozen
  exact fun _ _ => stepWith_stopped

/-! ### The generic advance -/

/-- Bytes that decode start with the opcode byte of what they decode to. -/
theorem opcodeMap_of_decode {c : Config} {s : State} {i : Instr} (hd : decode c (bytesAtPc s) = .ok i) :
    c.opcodeMap i.opcode = readByte s.mem s.pc :=
  opcodeMap_opcode_of_decodeWindow (w := windowAt s) hd

/-- Under a well-formed map bit 4 of the opcode byte is the sets_pc bit of the decoded instruction's row. -/
theorem setsPc_of_decode {c : Config} (hc : c.wellFormed = true) {s : State} {i : Instr}
    (hd : decode c (bytesAtPc s) = .ok i) : i.opcode.setsPc = (readByte s.mem s.pc).getLsbD 4 := by
  rw [← (Config.wellFormed_bits hc i.opcode).2, opcodeMap_of_decode hd, setsPcBit]

/-- Under a well-formed map the top two bits of the opcode byte are the operand count of the decoded instruction's row. -/
theorem operandCount_of_decode {c : Config} (hc : c.wellFormed = true) {s : State} {i : Instr}
    (hd : decode c (bytesAtPc s) = .ok i) : i.opcode.operandCount = (readByte s.mem s.pc).toNat / 64 := by
  rw [← toNat_opcodeMap_div hc, opcodeMap_of_decode hd]

/-- CALL leaves its return address in the cell below the pointer it started with. -/
theorem readByte_of_call_completed {a : Byte} {s t : State} (h : handlerOf (.call a) s = .ok t) :
    readByte t.mem (s.sp - 1).toNat = returnAddress s := by
  obtain ⟨ra, -, -, rfl⟩ := handlerOf_call_eq_ok.1 h
  exact readByte_writeByte_same s.mem _ _

theorem toNat_returnAddress {s : State} (h : s.pc ≤ 253) : (returnAddress s).toNat = s.pc + 2 := by
  rw [returnAddress, BitVec.toNat_ofNat, Nat.mod_eq_of_lt (by omega)]

/-- Settles O21, over the outcomes that do not fault: a completed instruction, whose row the well-formed map keeps in the
opcode byte, and the bare advance of an unknown byte. -/
theorem genericAdvanceFromOpcodeByte : Obligations.GenericAdvanceFromOpcodeByte := by
  unfold Obligations.GenericAdvanceFromOpcodeByte
  intro c s t hc hrun hstep hnofault
  cases stepOutcome_of_next hstep with
  | stopped hr => exact absurd hrun hr
  | raised => exact absurd rfl hnofault
  | @completed i _ _ hpc hd h =>
    rw [← setsPc_of_decode hc hd, ← operandCount_of_decode hc hd, hd]
    refine ⟨fun hclear => ?clear, fun hset => ⟨fun hu => ?unknown, fun a hi he => ?jeq, fun a hi he => ?jne,
      fun a hi => ?call⟩⟩
    case clear =>
      obtain ⟨-, hpc⟩ | ⟨hset, -⟩ := pc_of_completed h
      · exact hpc
      · rw [hclear] at hset
        cases hset
    case unknown => exact absurd (opcodeMap_of_decode hd) (hu _)
    case jeq =>
      cases hi
      obtain ⟨ra, -, rfl⟩ := handlerOf_jeq_eq_ok.1 h
      rw [if_neg (by simpa [flagE] using he)]
      rfl
    case jne =>
      cases hi
      obtain ⟨ra, -, rfl⟩ := handlerOf_jne_eq_ok.1 h
      rw [if_pos (by simpa [flagE] using he)]
      rfl
    case call =>
      cases hi
      exact (congrArg BitVec.toNat (readByte_of_call_completed h)).trans (toNat_returnAddress hpc)
  | skipped _ _ _ hu =>
    have hnot {i : Instr} (hi : decode c (bytesAtPc s) = .ok i) : False := hu _ (opcodeMap_of_decode hi)
    refine ⟨fun hclear => ?_, fun hset => ⟨fun _ => ?_, fun _ hi => (hnot hi).elim, fun _ hi => (hnot hi).elim,
      fun _ hi => (hnot hi).elim⟩⟩
    · rw [advance_of_bit_clear hclear, State.setPc_pc]
    · rw [advance_of_bit_set hset]

end Sys2Proof.Machine
end

section
/-! A register operand above 7: `a` is checked before `b`, and both before the handler does anything
(40_cycle_dispatch.md R86, R87). -/

namespace Sys2Proof.Machine

theorem handlerOf_of_first_above {i : Instr} {d : Byte} {rest : List Byte} (hi : i.registerOperands = d :: rest)
    (hd : 7 < d.toNat) (s : State) : handlerOf i s = .error ⟨.outOfBoundsReg, d.toNat⟩ := by
  cases i with
  | hlt | ret => cases hi
  | add | mul | and | or | xor | shl | shr =>
    cases hi
    exact aluTwo_eq_error.2 (.inl ⟨hd, rfl⟩)
  | cmp =>
    cases hi
    simp only [handlerOf, withRegs_of_above_a hd]
  | _ =>
    cases hi
    simp only [handlerOf, withReg_of_above hd]

theorem handlerOf_of_second_above {i : Instr} {d d' : Byte} (hi : i.registerOperands = [d, d']) (hd : d.toNat ≤ 7)
    (hd' : 7 < d'.toNat) (s : State) : handlerOf i s = .error ⟨.outOfBoundsReg, d'.toNat⟩ := by
  cases i with
  | add | mul | and | or | xor | shl | shr =>
    cases hi
    exact aluTwo_eq_error.2 (.inr ⟨hd, hd', rfl⟩)
  | cmp =>
    cases hi
    simp only [handlerOf, withRegs_of_above_b hd hd']
  | _ => cases hi

theorem exec_of_first_above {i : Instr} {d : Byte} {rest : List Byte} (hi : i.registerOperands = d :: rest)
    (hd : 7 < d.toNat) (s : State) : exec i s = .next (raise s ⟨.outOfBoundsReg, d.toNat⟩) :=
  exec_of_error (handlerOf_of_first_above hi hd _)

theorem exec_of_second_above {i : Instr} {d d' : Byte} (hi : i.registerOperands = [d, d']) (hd : d.toNat ≤ 7)
    (hd' : 7 < d'.toNat) (s : State) : exec i s = .next (raise s ⟨.outOfBoundsReg, d'.toNat⟩) :=
  exec_of_error (handlerOf_of_second_above hi hd hd' _)

/-- Settles O37: each instruction of the lists has `a`, or `a` and `b`, as its register operands. -/
theorem registerOperandFaults : Obligations.RegisterOperandFaults := by
  unfold Obligations.RegisterOperandFaults
  refine fun s a b => ⟨fun ha i hi => ?first, fun ha hb i hi => ?second⟩
  case first =>
    have hops : ∃ rest, i.registerOperands = a :: rest := by
      fin_cases hi <;> exact ⟨_, rfl⟩
    obtain ⟨rest, hops⟩ := hops
    exact exec_of_first_above hops ha s
  case second =>
    have hops : i.registerOperands = [a, b] := by
      fin_cases hi <;> rfl
    exact exec_of_second_above hops ha hb s

end Sys2Proof.Machine
end

section
/-! The ALU (41_alu.md): its functions are the operations of bit vectors, and its instructions write them to a register. -/

namespace Sys2Proof.Machine

/-! ### The functions -/

theorem aluAdd_eq (x y : Byte) : aluAdd x y = x + y := by
  rw [aluAdd, BitVec.ofNat_add, BitVec.ofNat_toNat, BitVec.ofNat_toNat, BitVec.setWidth_eq, BitVec.setWidth_eq]

theorem aluMul_eq (x y : Byte) : aluMul x y = x * y := by
  rw [aluMul, BitVec.ofNat_mul, BitVec.ofNat_toNat, BitVec.ofNat_toNat, BitVec.setWidth_eq, BitVec.setWidth_eq]

theorem toNat_aluNot (x : Byte) : (aluNot x).toNat = 255 - x.toNat := by
  rw [aluNot, BitVec.toNat_ofNat, Nat.mod_eq_of_lt (by omega)]

theorem aluNot_eq (x : Byte) : aluNot x = ~~~x :=
  BitVec.eq_of_toNat_eq (by rw [toNat_aluNot, BitVec.toNat_not])

theorem toNat_aluShl (x n : Byte) : (aluShl x n).toNat = x.toNat * 2 ^ n.toNat % 256 := by
  rw [aluShl, BitVec.toNat_ofNat]

theorem toNat_aluShr (x n : Byte) : (aluShr x n).toNat = x.toNat / 2 ^ n.toNat := by
  rw [aluShr, BitVec.toNat_ofNat, Nat.mod_eq_of_lt (lt_of_le_of_lt (Nat.div_le_self _ _) x.isLt)]

theorem aluShl_eq (x n : Byte) : aluShl x n = x <<< n.toNat :=
  BitVec.eq_of_toNat_eq (by rw [toNat_aluShl, BitVec.toNat_shiftLeft, Nat.shiftLeft_eq])

theorem aluShr_eq (x n : Byte) : aluShr x n = x >>> n.toNat :=
  BitVec.eq_of_toNat_eq (by rw [toNat_aluShr, BitVec.toNat_ushiftRight, Nat.shiftRight_eq_div_pow])

/-- Settles O27: the functions are bit-vector operations, whose laws the library has. -/
theorem aluArithmeticLaws : Obligations.AluArithmeticLaws := by
  unfold Obligations.AluArithmeticLaws
  refine ⟨fun x y => ?values, fun x y z => ?sums, fun x y z => ?products, fun x => ?complement, fun x n hn => ?far,
    fun x => ?zero⟩
  case values => exact ⟨BitVec.toNat_ofNat _ _, BitVec.toNat_ofNat _ _⟩
  case sums =>
    simp only [aluAdd_eq]
    exact ⟨BitVec.add_assoc x y z, BitVec.add_comm x y⟩
  case products =>
    simp only [aluMul_eq]
    exact ⟨BitVec.mul_assoc x y z, BitVec.mul_comm x y⟩
  case complement => rw [aluNot_eq, aluNot_eq, BitVec.not_not]
  case far =>
    rw [aluShl_eq, aluShr_eq]
    exact ⟨BitVec.shiftLeft_eq_zero hn, BitVec.ushiftRight_eq_zero hn⟩
  case zero =>
    rw [aluShl_eq, aluShr_eq]
    exact ⟨BitVec.shiftLeft_zero x, BitVec.ushiftRight_zero x⟩

/-! ### The instructions -/

/-- A two-operand ALU instruction whose operands name registers. -/
theorem exec_aluTwo_of_names {i : Instr} {f : Byte → Byte → Byte} {a b : Byte} {ra rb : Fin 8}
    (hi : handlerOf i = aluTwo f a b) (hcount : i.opcode.operandCount = 2) (hset : i.opcode.setsPc = false)
    (ha : a.toNat = ra.val) (hb : b.toNat = rb.val) (s : State) :
    exec i s = .next { s with x := s.x.set ra (f s.x[ra] s.x[rb]), pc := s.pc + 3 } := by
  refine exec_of_ok ?_
  rw [hi, hcount, hset, advance_pc]
  exact aluTwo_eq_ok.2 ⟨ra, rb, ha, hb, rfl⟩

theorem exec_not_of_names {a : Byte} {ra : Fin 8} (ha : a.toNat = ra.val) (s : State) :
    exec (.not a) s = .next { s with x := s.x.set ra (aluNot s.x[ra]), pc := s.pc + 2 } :=
  exec_of_ok (handlerOf_not_eq_ok.2 ⟨ra, ha, rfl⟩)

/-- Settles O22: the two functions are the sum and the product cut to a byte. -/
theorem addAndMulResults : Obligations.AddAndMulResults := by
  unfold Obligations.AddAndMulResults
  exact fun s a b _ _ ha hb =>
    ⟨⟨_, BitVec.toNat_ofNat _ _, exec_aluTwo_of_names (i := .add a b) rfl rfl rfl ha hb s⟩,
      ⟨_, BitVec.toNat_ofNat _ _, exec_aluTwo_of_names (i := .mul a b) rfl rfl rfl ha hb s⟩⟩

/-- Settles O23: the three functions are bitwise operations of bit vectors. -/
theorem bitwiseResults : Obligations.BitwiseResults := by
  unfold Obligations.BitwiseResults
  exact fun s a b _ _ ha hb =>
    ⟨⟨_, fun _ _ => BitVec.getLsbD_and, exec_aluTwo_of_names (i := .and a b) rfl rfl rfl ha hb s⟩,
      ⟨_, fun _ _ => BitVec.getLsbD_or, exec_aluTwo_of_names (i := .or a b) rfl rfl rfl ha hb s⟩,
      ⟨_, fun _ _ => BitVec.getLsbD_xor, exec_aluTwo_of_names (i := .xor a b) rfl rfl rfl ha hb s⟩⟩

/-- Settles O24: 255 less the byte is its complement. -/
theorem notResult : Obligations.NotResult := by
  unfold Obligations.NotResult
  refine fun s a ra ha => ⟨aluNot s.x[ra], toNat_aluNot _, fun k hk => ?_, exec_not_of_names ha s⟩
  rw [aluNot_eq, BitVec.getLsbD_not, decide_eq_true hk, Bool.true_and]

/-- Settles O25: the count is the whole second byte. -/
theorem shiftResults : Obligations.ShiftResults := by
  unfold Obligations.ShiftResults
  exact fun s a b _ _ ha hb =>
    ⟨⟨_, toNat_aluShl _ _, exec_aluTwo_of_names (i := .shl a b) rfl rfl rfl ha hb s⟩,
      ⟨_, toNat_aluShr _ _, exec_aluTwo_of_names (i := .shr a b) rfl rfl rfl ha hb s⟩⟩

/-- An instruction form that applies one function of two bytes, and is otherwise like every two-operand ALU
instruction. -/
def AppliesAluTwo (form : Byte → Byte → Instr) (f : Byte → Byte → Byte) : Prop :=
  ∀ a b : Byte, handlerOf (form a b) = aluTwo f a b ∧ (form a b).registerOperands = [a, b] ∧
    (form a b).opcode.operandCount = 2 ∧ (form a b).opcode.setsPc = false

theorem exists_appliesAluTwo {form : Byte → Byte → Instr}
    (h : form ∈ [Instr.add, .mul, .and, .or, .xor, .shl, .shr]) : ∃ f, AppliesAluTwo form f := by
  simp only [List.mem_cons, List.not_mem_nil, or_false] at h
  rcases h with rfl | rfl | rfl | rfl | rfl | rfl | rfl <;> exact ⟨_, fun _ _ => ⟨rfl, rfl, rfl, rfl⟩⟩

/-- Settles O26: each form applies one function, and both operands are checked before it acts. -/
theorem aluFamilyIsPureFunctionsOfRegisters : Obligations.AluFamilyIsPureFunctionsOfRegisters := by
  unfold Obligations.AluFamilyIsPureFunctionsOfRegisters
  refine ⟨fun form hform => ?two, aluNot, fun s a => ⟨fun ra ha => exec_not_of_names ha s, ?notAbove⟩⟩
  case two =>
    obtain ⟨f, hf⟩ := exists_appliesAluTwo hform
    refine ⟨f, fun s a b => ?_⟩
    obtain ⟨hhandler, hops, hcount, hset⟩ := hf a b
    exact ⟨fun ra rb ha hb => exec_aluTwo_of_names hhandler hcount hset ha hb s,
      fun ha => exec_of_first_above hops ha s, fun ha hb => exec_of_second_above hops ha hb s⟩
  case notAbove => exact fun ha => exec_of_first_above (i := .not a) rfl ha s

end Sys2Proof.Machine
end

section
/-! The results of the other instructions with a legal operand (42_compare.md to 45_load_immediate_and_output.md), and the
bounds of the stack pointer (43_stack.md R122). -/

namespace Sys2Proof.Machine

/-! ### CMP -/

/-- A byte below 8 has no bit from 3 on. -/
theorem getLsbD_eq_false_of_lt_eight {f : Byte} (h : f.toNat < 8) {k : Nat} (hk : 3 ≤ k) : f.getLsbD k = false := by
  rw [← BitVec.testBit_toNat]
  exact Nat.testBit_lt_two_pow (h.trans_le (Nat.pow_le_pow_right (n := 2) (by decide) hk))

theorem compareFlags_of_eq {va vb : Byte} (h : va.toNat = vb.toNat) : compareFlags va vb = 0x01#8 := by
  rw [compareFlags_eq, if_pos h]

theorem compareFlags_of_gt {va vb : Byte} (h : va.toNat > vb.toNat) : compareFlags va vb = 0x02#8 := by
  rw [compareFlags_eq, if_neg (by omega), if_pos h]

theorem compareFlags_of_lt {va vb : Byte} (h : va.toNat < vb.toNat) : compareFlags va vb = 0x04#8 := by
  rw [compareFlags_eq, if_neg (by omega), if_neg (by omega)]

/-- The bits of a comparison's flags. -/
theorem compareFlags_bits (va vb : Byte) :
    (compareFlags va vb).getLsbD 0 = decide (va = vb) ∧
    (compareFlags va vb).getLsbD 1 = decide (va.toNat > vb.toNat) ∧
    (compareFlags va vb).getLsbD 2 = decide (va.toNat < vb.toNat) ∧
    ∀ k, 3 ≤ k → (compareFlags va vb).getLsbD k = false := by
  simp only [← BitVec.toNat_inj]
  rcases Nat.lt_trichotomy va.toNat vb.toNat with h | h | h
  · rw [compareFlags_of_lt h]
    exact ⟨by simp [h.ne], by simp [h.le], by simp [h], fun _ => getLsbD_eq_false_of_lt_eight (by decide)⟩
  · rw [compareFlags_of_eq h]
    exact ⟨by simp [h], by simp [h], by simp [h], fun _ => getLsbD_eq_false_of_lt_eight (by decide)⟩
  · rw [compareFlags_of_gt h]
    exact ⟨by simp [h.ne'], by simp [h], by simp [h.le], fun _ => getLsbD_eq_false_of_lt_eight (by decide)⟩

/-- Settles O28: the new flags are the comparison's, by its three outcomes. -/
theorem cmpResult : Obligations.CmpResult := by
  unfold Obligations.CmpResult
  intro s a b ra rb ha hb
  obtain ⟨hE, hG, hL, hrest⟩ := compareFlags_bits s.x[ra] s.x[rb]
  exact ⟨compareFlags s.x[ra] s.x[rb], hE, hG, hL, hrest, compareFlags_of_eq, compareFlags_of_gt, compareFlags_of_lt,
    exec_of_ok (handlerOf_cmp_eq_ok.2 ⟨ra, rb, ha, hb, rfl⟩)⟩

/-! ### The stack -/

theorem exec_push_of_names {s : State} {a : Byte} {ra : Fin 8} (ha : a.toNat = ra.val)
    (hsp : s.x[(7 : Fin 8)] ≠ 0x00#8) :
    exec (.push a) s = .next { s with
      x := s.x.set 7 (s.x[(7 : Fin 8)] - 1),
      mem := writeByte s.mem (s.x[(7 : Fin 8)] - 1).toNat (if ra = 7 then s.x[(7 : Fin 8)] - 1 else s.x[ra]),
      pc := s.pc + 2 } := by
  have hvalue : (s.writeReg spIndex (s.sp - 1)).readReg ra = if ra = 7 then s.x[(7 : Fin 8)] - 1 else s.x[ra] :=
    State.readReg_writeReg s spIndex ra (s.sp - 1)
  rw [← hvalue]
  exact exec_of_ok (handlerOf_push_eq_ok.2 ⟨ra, ha, hsp, rfl⟩)

/-- Settles O29: the register is read after the pointer has moved. -/
theorem pushResult : Obligations.PushResult := by
  unfold Obligations.PushResult
  exact fun _ _ _ ha hsp => exec_push_of_names ha hsp

/-- The pointer after POP's register write: it is the popped byte for POP R7, else as before. -/
theorem sp_writeReg (s : State) (ra : Fin 8) (v : Byte) :
    (s.writeReg ra v).sp = if ra = 7 then v else s.sp := by
  rw [State.sp, State.readReg_writeReg, spIndex, State.sp]
  simp only [eq_comm (a := (7 : Fin 8)), spIndex]

/-- POP of another register. -/
theorem exec_pop_of_ne {s : State} {a : Byte} {ra : Fin 8} (ha : a.toNat = ra.val) (h7 : ra ≠ 7)
    (hsp : s.x[(7 : Fin 8)].toNat < 255) :
    exec (.pop a) s = .next { s with
      x := (s.x.set ra (readByte s.mem s.x[(7 : Fin 8)].toNat)).set 7 (s.x[(7 : Fin 8)] + 1), pc := s.pc + 2 } := by
  refine exec_of_ok (withReg_eq_ok.2 ⟨ra, ha, popInto_eq_ok.2 ?_⟩)
  rw [sp_writeReg, if_neg h7]
  exact ⟨hsp, rfl⟩

theorem State.writeReg_writeReg_same (s : State) (r : Fin 8) (v w : Byte) :
    (s.writeReg r v).writeReg r w = s.writeReg r w := by
  simp [State.writeReg]

/-- POP R7. -/
theorem exec_pop_sp {s : State} {a : Byte} (ha : a.toNat = 7)
    (hv : (readByte s.mem s.x[(7 : Fin 8)].toNat).toNat < 255) :
    exec (.pop a) s = .next { s with
      x := s.x.set 7 (readByte s.mem s.x[(7 : Fin 8)].toNat + 1), pc := s.pc + 2 } := by
  refine exec_of_ok (withReg_eq_ok.2 ⟨7, ha, popInto_eq_ok.2 ?_⟩)
  rw [sp_writeReg, if_pos rfl]
  exact ⟨hv, (State.writeReg_writeReg_same (s.setPc (s.pc + 2)) 7 (readByte s.mem s.x[(7 : Fin 8)].toNat) _).symm⟩

/-- Settles O30: the pointer is read after the register is written. -/
theorem popResult : Obligations.PopResult := by
  unfold Obligations.PopResult
  refine fun s a ra ha => ⟨fun h7 hsp => exec_pop_of_ne ha h7 hsp, fun h7 hv => ?_⟩
  subst h7
  exact exec_pop_sp ha hv

theorem exec_call_of_names {s : State} {a : Byte} {ra : Fin 8} (ha : a.toNat = ra.val)
    (hsp : s.x[(7 : Fin 8)] ≠ 0x00#8) :
    exec (.call a) s = .next { s with
        x := s.x.set 7 (s.x[(7 : Fin 8)] - 1),
        mem := writeByte s.mem (s.x[(7 : Fin 8)] - 1).toNat (returnAddress s),
        pc := if ra = 7 then (s.x[(7 : Fin 8)] - 1).toNat else s.x[ra].toNat } := by
  have htarget : ((s.writeReg spIndex (s.sp - 1)).readReg ra).toNat =
      if ra = 7 then (s.x[(7 : Fin 8)] - 1).toNat else s.x[ra].toNat := by
    rw [State.readReg_writeReg]
    exact apply_ite BitVec.toNat (ra = 7) _ _
  rw [← htarget]
  exact exec_of_ok (handlerOf_call_eq_ok.2 ⟨ra, ha, hsp, rfl⟩)

/-- Settles O31: the return address is pushed, then the register is read. -/
theorem callResult : Obligations.CallResult := by
  unfold Obligations.CallResult
  exact fun s _ _ ha hsp => ⟨returnAddress s, toNat_returnAddress, exec_call_of_names ha hsp⟩

/-- Settles O32: RET completes exactly where the pointer can move up. -/
theorem retResult : Obligations.RetResult := by
  unfold Obligations.RetResult
  exact fun _ hsp => exec_of_ok (i := .ret) (returnFrom_eq_ok.2 ⟨hsp, rfl⟩)

/-- PUSH with the pointer at 0 raises. -/
theorem handlerOf_push_of_sp_zero {s : State} {a : Byte} {ra : Fin 8} (ha : a.toNat = ra.val) (hsp : s.sp = 0x00#8) :
    handlerOf (.push a) s = .error ⟨.outOfBoundsMem, -1⟩ := by
  simp only [handlerOf, withReg_of_names ha]
  exact pushWith_eq_error.2 ⟨hsp, rfl⟩

/-- CALL with the pointer at 0 raises. -/
theorem handlerOf_call_of_sp_zero {s : State} {a : Byte} {ra : Fin 8} (ha : a.toNat = ra.val) (hsp : s.sp = 0x00#8) :
    handlerOf (.call a) s = .error ⟨.outOfBoundsMem, -1⟩ := by
  simp only [handlerOf, withReg_of_names ha]
  exact callTo_eq_error.2 (pushWith_eq_error.2 ⟨hsp, rfl⟩)

/-- Settles O38: where the pointer cannot move the handler raises, and the fault is taken from the state before it. -/
theorem stackBoundFaults : Obligations.StackBoundFaults := by
  unfold Obligations.StackBoundFaults
  refine fun s a ra ha => ⟨fun hsp i hi => ?store, fun hsp => ?ret, fun h7 hsp => ?pop, fun h7 hv => ?popSp⟩
  case store =>
    fin_cases hi
    · exact exec_of_error (handlerOf_push_of_sp_zero ha hsp)
    · exact exec_of_error (handlerOf_call_of_sp_zero ha hsp)
  case ret => exact exec_of_error (i := .ret) (returnFrom_eq_error.2 ⟨congrArg BitVec.toNat hsp, rfl⟩)
  case pop =>
    refine exec_of_error (i := .pop a) (withReg_eq_error.2 (.inr ⟨ra, ha, popInto_eq_error.2 ⟨?_, rfl⟩⟩))
    rw [sp_writeReg, if_neg h7]
    exact congrArg BitVec.toNat hsp
  case popSp =>
    refine exec_of_error (i := .pop a) (withReg_eq_error.2 (.inr ⟨ra, ha, popInto_eq_error.2 ⟨?_, rfl⟩⟩))
    rw [sp_writeReg, if_pos h7]
    exact congrArg BitVec.toNat hv

/-! ### Jumps, HLT, LDI, PRN -/

theorem exec_jeq_of_names {s : State} {a : Byte} {ra : Fin 8} (ha : a.toNat = ra.val) :
    exec (.jeq a) s = .next { s with pc := if s.fl.getLsbD 0 = true then s.x[ra].toNat else s.pc + 2 } := by
  refine exec_of_ok (handlerOf_jeq_eq_ok.2 ⟨ra, ha, ?_⟩)
  exact apply_ite (State.setPc s) (flagE s.fl = true) _ _

theorem exec_jne_of_names {s : State} {a : Byte} {ra : Fin 8} (ha : a.toNat = ra.val) :
    exec (.jne a) s = .next { s with pc := if s.fl.getLsbD 0 = true then s.pc + 2 else s.x[ra].toNat } := by
  refine exec_of_ok (handlerOf_jne_eq_ok.2 ⟨ra, ha, ?_⟩)
  exact apply_ite (State.setPc s) (flagE s.fl = true) _ _

/-- Settles O33: a jump writes the pc alone, and only bit 0 of the flags decides. -/
theorem jumpResults : Obligations.JumpResults := by
  unfold Obligations.JumpResults
  exact fun s a ra ha => ⟨exec_of_ok (handlerOf_jmp_eq_ok.2 ⟨ra, ha, rfl⟩), exec_jeq_of_names ha, exec_jne_of_names ha⟩

/-- Settles O34: the generic advance, then the run state. -/
theorem hltResult : Obligations.HltResult := by
  unfold Obligations.HltResult
  exact fun _ => exec_of_ok (i := .hlt) rfl

/-- Settles O35: the immediate is written as it stands. -/
theorem ldiResult : Obligations.LdiResult := by
  unfold Obligations.LdiResult
  exact fun _ _ _ ra ha => exec_of_ok (handlerOf_ldi_eq_ok.2 ⟨ra, ha, rfl⟩)

/-- The rendering adds one line for one more byte. -/
theorem renderOut_append_singleton (out : List Byte) (v : Byte) :
    renderOut (out ++ [v]) = renderOut out ++ Nat.repr v.toNat ++ "\n" := by
  rw [renderOut, List.foldl_append]
  rfl

/-- Settles O36: PRN appends the register, and the rendering goes over the log from its start. -/
theorem prnResult : Obligations.PrnResult := by
  unfold Obligations.PrnResult
  exact ⟨fun _ _ ra ha => exec_of_ok (handlerOf_prn_eq_ok.2 ⟨ra, ha, rfl⟩), rfl, renderOut_append_singleton⟩

end Sys2Proof.Machine
end

section
/-! What an executed instruction changes, field by field, from the state its cycle began in. -/

namespace Sys2Proof.Machine

/-- The run state and the record: left alone, halted by HLT, or a fault taken from the state the cycle began in. -/
theorem exec_run {i : Instr} {s t : State} (h : exec i s = .next t) :
    (i ≠ .hlt ∧ t.run = s.run ∧ t.fault = s.fault) ∨ (i = .hlt ∧ t.run = .halted ∧ t.fault = s.fault) ∨
    ∃ e, handlerOf i (advance i.opcode.operandCount i.opcode.setsPc s) = .error e ∧ t = raise s e := by
  rcases exec_eq_next.1 h with hok | herr
  · obtain ⟨hfault, -⟩ := handlerOf_ok_unchanged hok
    rw [advance_fault] at hfault
    rcases handlerOf_ok_run hok with ⟨hi, hrun⟩ | ⟨hi, hrun⟩
    · exact .inl ⟨hi, by simpa using hrun, hfault⟩
    · exact .inr (.inl ⟨hi, hrun, hfault⟩)
  · exact .inr (.inr herr)

/-- The flags: changed by a CMP with legal operands alone. -/
theorem exec_fl {i : Instr} {s t : State} (h : exec i s = .next t) :
    t.fl = s.fl ∨ ∃ (a b : Byte) (ra rb : Fin 8), i = .cmp a b ∧ a.toNat = ra.val ∧ b.toNat = rb.val ∧
      t.fl = compareFlags s.x[ra] s.x[rb] := by
  rcases exec_eq_next.1 h with hok | ⟨e, -, rfl⟩
  · simpa only [advance_fl, State.readReg_eq, advance_x] using handlerOf_ok_fl hok
  · exact .inl rfl

/-- The output log: extended by a PRN with a legal operand alone. -/
theorem exec_out {i : Instr} {s t : State} (h : exec i s = .next t) :
    t.out = s.out ∨ ∃ (a : Byte) (ra : Fin 8), i = .prn a ∧ a.toNat = ra.val ∧ t.out = s.out ++ [s.x[ra]] := by
  rcases exec_eq_next.1 h with hok | ⟨e, -, rfl⟩
  · simpa only [advance_out, State.readReg_eq, advance_x] using handlerOf_ok_out hok
  · exact .inl rfl

/-- Memory: one cell written by a PUSH or CALL with a pointer that is not 0. -/
theorem exec_mem {i : Instr} {s t : State} (h : exec i s = .next t) :
    t.mem = s.mem ∨ ((∃ a, i = .push a ∨ i = .call a) ∧ s.sp ≠ 0x00#8 ∧
      ∃ v, t.mem = writeByte s.mem (s.sp - 1).toNat v) := by
  rcases exec_eq_next.1 h with hok | ⟨e, -, rfl⟩
  · simpa only [advance_mem, State.sp_advance] using handlerOf_ok_mem hok
  · exact .inl rfl

/-- Whether an instruction moves the stack pointer (43_stack.md section 1). -/
def movesSp : Instr → Bool
  | .push _ | .pop _ | .call _ | .ret => true
  | _ => false

theorem exec_mem_of_not_movesSp {i : Instr} {s t : State} (hi : movesSp i = false) (h : exec i s = .next t) :
    t.mem = s.mem := by
  rcases exec_mem h with hmem | ⟨⟨_, rfl | rfl⟩, -⟩
  · exact hmem
  · cases hi
  · cases hi

/-- The operand byte of the register an instruction writes by name (41_alu.md R100, 43_stack.md R121, 45 R140). -/
def destination : Instr → Option Byte
  | .ldi a _ | .add a _ | .mul a _ | .and a _ | .or a _ | .xor a _ | .not a | .shl a _ | .shr a _ | .pop a => some a
  | _ => none

/-- A completed handler writes no register but its destination and, for the stack instructions, the pointer. -/
theorem handlerOf_ok_readReg {i : Instr} {s u : State} (h : handlerOf i s = .ok u) {r : Fin 8}
    (hdest : ∀ a ∈ destination i, a.toNat ≠ r.val) (hsp : movesSp i = true → r ≠ 7) :
    u.readReg r = s.readReg r := by
  have ne_of_dest {a : Byte} {ra : Fin 8} (hi : destination i = some a) (ha : a.toNat = ra.val) : r ≠ ra :=
    fun hr => hdest a hi (hr ▸ ha)
  cases i with
  | ldi a imm =>
    obtain ⟨ra, ha, rfl⟩ := handlerOf_ldi_eq_ok.1 h
    exact s.readReg_writeReg_other _ (ne_of_dest rfl ha)
  | not a =>
    obtain ⟨ra, ha, rfl⟩ := handlerOf_not_eq_ok.1 h
    exact s.readReg_writeReg_other _ (ne_of_dest rfl ha)
  | add | mul | and | or | xor | shl | shr =>
    obtain ⟨ra, rb, ha, -, rfl⟩ := aluTwo_eq_ok.1 h
    exact s.readReg_writeReg_other _ (ne_of_dest rfl ha)
  | hlt =>
    cases h
    rfl
  | prn =>
    obtain ⟨ra, -, rfl⟩ := handlerOf_prn_eq_ok.1 h
    rfl
  | cmp =>
    obtain ⟨ra, rb, -, -, rfl⟩ := handlerOf_cmp_eq_ok.1 h
    rfl
  | jmp =>
    obtain ⟨ra, -, rfl⟩ := handlerOf_jmp_eq_ok.1 h
    rfl
  | jeq =>
    obtain ⟨ra, -, rfl⟩ := handlerOf_jeq_eq_ok.1 h
    split <;> rfl
  | jne =>
    obtain ⟨ra, -, rfl⟩ := handlerOf_jne_eq_ok.1 h
    split <;> rfl
  | push =>
    obtain ⟨ra, -, -, rfl⟩ := handlerOf_push_eq_ok.1 h
    exact s.readReg_writeReg_other _ (hsp rfl)
  | call =>
    obtain ⟨ra, -, -, rfl⟩ := handlerOf_call_eq_ok.1 h
    exact s.readReg_writeReg_other _ (hsp rfl)
  | pop a =>
    simp only [handlerOf] at h
    obtain ⟨ra, ha, hpop⟩ := withReg_eq_ok.1 h
    obtain ⟨-, rfl⟩ := popInto_eq_ok.1 hpop
    exact (State.readReg_writeReg_other _ _ (hsp rfl)).trans (s.readReg_writeReg_other _ (ne_of_dest rfl ha))
  | ret =>
    obtain ⟨-, rfl⟩ := returnFrom_eq_ok.1 h
    exact s.readReg_writeReg_other _ (hsp rfl)

/-- An executed instruction writes no register but its destination and, for the stack instructions, the pointer. -/
theorem exec_readReg {i : Instr} {s t : State} (h : exec i s = .next t) {r : Fin 8}
    (hdest : ∀ a ∈ destination i, a.toNat ≠ r.val) (hsp : movesSp i = true → r ≠ 7) : t.x[r] = s.x[r] := by
  rcases exec_eq_next.1 h with hok | ⟨e, -, rfl⟩
  · exact (handlerOf_ok_readReg hok hdest hsp).trans (State.readReg_advance _ _ s r)
  · rfl

/-- A handler that does not move the stack pointer raises OutOfBoundsReg alone. -/
theorem handlerOf_error_of_not_stack {i : Instr} {s : State} {e : Raised} (hi : movesSp i = false)
    (h : handlerOf i s = .error e) : e.cause = .outOfBoundsReg := by
  cases i with
  | ldi | prn | not | jmp | jeq | jne =>
    simp only [handlerOf] at h
    rcases withReg_eq_error.1 h with ⟨-, rfl⟩ | ⟨ra, -, hact⟩
    · rfl
    · cases hact
  | hlt => cases h
  | add | mul | and | or | xor | shl | shr =>
    rcases aluTwo_eq_error.1 h with ⟨-, rfl⟩ | ⟨-, -, rfl⟩ <;> rfl
  | cmp =>
    simp only [handlerOf] at h
    rcases withRegs_eq_error.1 h with ⟨-, rfl⟩ | ⟨-, -, rfl⟩ | ⟨ra, rb, -, -, hact⟩
    · rfl
    · rfl
    · cases hact
  | push | pop | call | ret => cases hi

end Sys2Proof.Machine
end

section
/-! The frames of the instruction families: what each leaves unchanged. -/

namespace Sys2Proof.Machine

/-- Registers that read alike one by one are one register file. -/
theorem x_eq_of_forall {s t : State} (h : ∀ r : Fin 8, t.x[r] = s.x[r]) : t.x = s.x :=
  Vector.ext fun k hk => h ⟨k, hk⟩

/-- Settles O42: the named register is the destination, and only an operand can fault. -/
theorem registerWritersFrame : Obligations.RegisterWritersFrame := by
  unfold Obligations.RegisterWritersFrame
  intro s t a b i hi h
  obtain ⟨hdest, hstack, hcmp, hprn, hhlt⟩ : destination i = some a ∧ movesSp i = false ∧
      (∀ a b, i ≠ .cmp a b) ∧ (∀ a, i ≠ .prn a) ∧ i ≠ .hlt := by
    fin_cases hi <;> exact ⟨rfl, rfl, nofun, nofun, nofun⟩
  refine ⟨fun r har => exec_readReg h (by simpa [hdest] using har) (by simp [hstack]), ?fl, ?out,
    fun d => congrArg (readByte · d) (exec_mem_of_not_movesSp hstack h), ?run⟩
  case fl =>
    rcases exec_fl h with hfl | ⟨_, _, _, _, rfl, -⟩
    · exact hfl
    · exact absurd rfl (hcmp _ _)
  case out =>
    rcases exec_out h with hout | ⟨_, _, rfl, -⟩
    · exact hout
    · exact absurd rfl (hprn _)
  case run =>
    rcases exec_run h with ⟨-, hrun, hfault⟩ | ⟨rfl, -⟩ | ⟨e, he, rfl⟩
    · exact .inl ⟨hrun, hfault⟩
    · exact absurd rfl hhlt
    · exact .inr ⟨rfl, handlerOf_error_of_not_stack hstack he, rfl, rfl, rfl⟩

/-- Settles O43: these instructions have no destination and do not move the pointer. -/
theorem nonWritersFrame : Obligations.NonWritersFrame := by
  unfold Obligations.NonWritersFrame
  intro s t a b i hi h
  obtain ⟨hdest, hstack, hcmp, hprn⟩ : destination i = none ∧ movesSp i = false ∧
      (∀ a' b', i = .cmp a' b' → i = .cmp a b) ∧ (∀ a', i = .prn a' → i = .prn a) := by
    fin_cases hi <;> exact ⟨rfl, rfl, by simp, by simp⟩
  refine ⟨x_eq_of_forall fun r => exec_readReg h (by simp [hdest]) (by simp [hstack]),
    fun d => congrArg (readByte · d) (exec_mem_of_not_movesSp hstack h), fun hne => ?fl, fun hne => ?out, ?run⟩
  case fl =>
    rcases exec_fl h with hfl | ⟨_, _, _, _, hi, -⟩
    · exact hfl
    · exact absurd (hcmp _ _ hi) hne
  case out =>
    rcases exec_out h with hout | ⟨_, _, hi, -⟩
    · exact hout
    · exact absurd (hprn _ hi) hne
  case run =>
    rcases exec_run h with ⟨-, hrun, hfault⟩ | hhlt | ⟨e, he, rfl⟩
    · exact .inl ⟨hrun, hfault⟩
    · exact .inr (.inl hhlt)
    · exact .inr (.inr ⟨rfl, handlerOf_error_of_not_stack hstack he, rfl, rfl, rfl, rfl⟩)

/-- The flags, the output, run and the record under the four instructions that move the pointer. -/
theorem exec_stack_frame {i : Instr} {s t : State} (hi : movesSp i = true) (h : exec i s = .next t) :
    t.fl = s.fl ∧ t.out = s.out ∧
    ((t.run = s.run ∧ t.fault = s.fault) ∨
      (t.run = .faulted ∧ t.fault.ipc = s.pc ∧ t.x = s.x ∧ t.mem = s.mem ∧ t.pc = s.pc)) := by
  refine ⟨?fl, ?out, ?run⟩
  case fl =>
    rcases exec_fl h with hfl | ⟨_, _, _, _, rfl, -⟩
    · exact hfl
    · cases hi
  case out =>
    rcases exec_out h with hout | ⟨_, _, rfl, -⟩
    · exact hout
    · cases hi
  case run =>
    rcases exec_run h with ⟨-, hrun, hfault⟩ | ⟨rfl, -⟩ | ⟨e, -, rfl⟩
    · exact .inl ⟨hrun, hfault⟩
    · cases hi
    · exact .inr ⟨rfl, rfl, rfl, rfl, rfl⟩

/-- Settles O44: the one cell PUSH and CALL write is the one `pushAddress` gives. -/
theorem stackStoreFrame : Obligations.StackStoreFrame := by
  unfold Obligations.StackStoreFrame
  intro s t a i hi h
  obtain ⟨hdest, hstack⟩ : destination i = none ∧ movesSp i = true := by
    fin_cases hi <;> exact ⟨rfl, rfl⟩
  obtain ⟨hfl, hout, hrun⟩ := exec_stack_frame hstack h
  refine ⟨fun r hr => exec_readReg h (by simp [hdest]) fun _ => hr, hfl, hout, fun slot hslot d hd => ?slot,
    fun e he d => ?noSlot, hrun⟩
  case slot =>
    obtain ⟨-, rfl⟩ := pushAddress_eq_ok.1 hslot
    rcases exec_mem h with hmem | ⟨-, -, v, hmem⟩ <;> rw [hmem]
    exact readByte_writeByte_other s.mem v hd
  case noSlot =>
    obtain ⟨hz, -⟩ := pushAddress_eq_error.1 he
    rcases exec_mem h with hmem | ⟨-, hsp, -⟩
    · rw [hmem]
    · exact absurd hz hsp

/-- Settles O45: neither instruction stores, and POP's operand is its destination. -/
theorem stackLoadFrame : Obligations.StackLoadFrame := by
  unfold Obligations.StackLoadFrame
  intro s t a i hi h
  obtain ⟨hdest, hstack, hpush, hcall⟩ : (∀ a' ∈ destination i, i = .pop a ∧ a' = a) ∧ movesSp i = true ∧
      (∀ a, i ≠ .push a) ∧ ∀ a, i ≠ .call a := by
    fin_cases hi <;> exact ⟨by simp [destination], rfl, nofun, nofun⟩
  obtain ⟨hfl, hout, hrun⟩ := exec_stack_frame hstack h
  have hmem : t.mem = s.mem := by
    rcases exec_mem h with hmem | ⟨⟨_, rfl | rfl⟩, -⟩
    · exact hmem
    · exact absurd rfl (hpush _)
    · exact absurd rfl (hcall _)
  refine ⟨fun r hr har => exec_readReg h (fun a' ha' => ?_) fun _ => hr, hfl, hout,
    fun d => congrArg (readByte · d) hmem, hrun.imp id fun ⟨hf, hipc, hx, _, hpc⟩ => ⟨hf, hipc, hx, hpc⟩⟩
  obtain ⟨hpop, rfl⟩ := hdest a' ha'
  exact har hpop

end Sys2Proof.Machine
end

section
/-! The rules of the whole machine: what a fault is, and the one instruction that can change each field
(60_exceptions.md, 10_state.md, 70_reset_and_hazards.md section 4). -/

namespace Sys2Proof.Machine

/-! ### Faults -/

/-- A running machine ends Faulted only by a `raise` from the state the cycle began in. -/
theorem exists_raise_of_faulted {c : Config} {s t : State} (hr : s.run = .running) (h : stepWith c s = .next t)
    (ht : t.run = .faulted) : ∃ e, StepRaises c s e ∧ t = raise s e := by
  cases stepOutcome_of_next h with
  | stopped hstop => exact absurd hr hstop
  | @raised e _ he => exact ⟨e, he, rfl⟩
  | completed _ _ _ h =>
    rcases handlerOf_ok_run h with ⟨-, hrun⟩ | ⟨-, hrun⟩ <;> simp [hrun, hr] at ht
  | skipped => simp [hr] at ht

/-- Settles O39: `raise` writes run and the record alone. -/
theorem faultsArePrecise : Obligations.FaultsArePrecise := by
  unfold Obligations.FaultsArePrecise
  intro c s t hr h ht
  obtain ⟨e, he, rfl⟩ := exists_raise_of_faulted hr h ht
  exact ⟨rfl, rfl, rfl, rfl, rfl, rfl, he.cause_ne.1⟩

/-- A register operand of what the bytes at the pc decode to is one of the two bytes after the opcode. -/
theorem mem_registerOperands_of_decode {c : Config} {s : State} {i : Instr} {d : Byte}
    (hd : decode c (bytesAtPc s) = .ok i) (h : d ∈ i.registerOperands) :
    d = readByte s.mem (s.pc + 1) ∨ d = readByte s.mem (s.pc + 2) := by
  have hsub : d ∈ i.operands := by
    cases i with
    | ldi =>
      cases List.mem_singleton.1 h
      exact .head _
    | _ => exact h
  obtain ⟨op, -, rfl⟩ := (decodeWindow_eq_ok (w := windowAt s)).1 hd
  rw [operands_instrOf] at hsub
  simpa [windowAt] using List.mem_of_mem_take hsub

/-- Settles O40, over the reasons to raise: the fetch at a pc within the invariant's bound, a handler's operand or
pointer, and an unknown byte. -/
theorem faultCausesAndIndices : Obligations.FaultCausesAndIndices := by
  unfold Obligations.FaultCausesAndIndices
  rintro c s t ⟨-, hbound, -, -⟩ hr h ht
  obtain ⟨e, he, rfl⟩ := exists_raise_of_faulted hr h ht
  cases he with
  | fetch hpc =>
    have hle : s.pc ≤ 257 := hbound.trans (by cases c.unknownOpcode <;> decide)
    have hmax : max (s.pc : Int) 256 = 256 ∨ max (s.pc : Int) 256 = 257 := by omega
    exact .inl ⟨rfl, rfl, List.mem_cons_of_mem _ (by simpa using hmax)⟩
  | handler hd herr =>
    rcases handlerOf_error_causes herr with ⟨d, hmem, hlt, rfl⟩ | rfl | rfl
    · have hbyte := d.isLt
      refine .inr (.inl ⟨rfl, rfl, by simp; omega, by simp; omega, ?_⟩)
      exact (mem_registerOperands_of_decode hd hmem).imp (fun h => by simp [h]) fun h => by simp [h]
    · exact .inl ⟨rfl, rfl, by simp⟩
    · exact .inl ⟨rfl, rfl, by simp⟩
  | unknown hp hu => exact .inr (.inr ⟨rfl, rfl, hp, rfl, hu⟩)

/-- Settles O41: a step keeps the record or raises one of the causes that exist. -/
theorem unsupportedOperationNeverRaised : Obligations.UnsupportedOperationNeverRaised := by
  unfold Obligations.UnsupportedOperationNeverRaised
  refine ⟨rfl, fun c s t hs h => ?_⟩
  cases stepOutcome_of_next h with
  | stopped => exact hs
  | raised _ he => exact he.cause_ne.2
  | completed _ _ _ h =>
    obtain ⟨hfault, -⟩ := handlerOf_ok_unchanged h
    rwa [hfault, advance_fault]
  | skipped => rwa [advance_fault]

/-! ### Which instruction changes a field -/

/-- A step changes flags, output or memory only by executing the instruction at the pc. -/
theorem executed_or_unchanged {c : Config} {s t : State} (h : stepWith c s = .next t) :
    (∃ i, decode c (bytesAtPc s) = .ok i ∧ exec i s = .next t) ∨ (t.fl = s.fl ∧ t.out = s.out ∧ t.mem = s.mem) := by
  cases stepOutcome_of_next h with
  | stopped | raised => exact .inr ⟨rfl, rfl, rfl⟩
  | completed _ _ hd h => exact .inl ⟨_, hd, exec_of_ok h⟩
  | skipped => exact .inr ⟨advance_fl .., advance_out .., advance_mem ..⟩

/-- Settles O47: an executed CMP alone writes the flags, by the comparison's three outcomes. -/
theorem flagsChangeOnlyAtCompare : Obligations.FlagsChangeOnlyAtCompare := by
  unfold Obligations.FlagsChangeOnlyAtCompare
  refine ⟨rfl, fun c s t h hne => ?step, fun i s t hi h => ?others, fun s a ra ha hz => ?jumps⟩
  case step =>
    obtain ⟨i, hd, hexec⟩ | ⟨hfl, -⟩ := executed_or_unchanged h
    · obtain hfl | ⟨a, b, ra, rb, rfl, ha, hb, hfl⟩ := exec_fl hexec
      · exact absurd hfl hne
      · exact ⟨a, b, ra, rb, hd, ha, hb, hfl.trans (compareFlags_eq _ _)⟩
    · exact absurd hfl hne
  case others =>
    obtain hfl | ⟨_, _, _, _, rfl, -⟩ := exec_fl h
    · exact hfl
    · exact absurd rfl hi
  case jumps =>
    rw [exec_jeq_of_names ha, exec_jne_of_names ha, hz]
    exact ⟨rfl, rfl⟩

/-- Settles O48: an executed PRN alone writes the log. -/
theorem outputGrowsOnlyByPrn : Obligations.OutputGrowsOnlyByPrn := by
  unfold Obligations.OutputGrowsOnlyByPrn
  intro c s t h
  obtain ⟨i, hd, hexec⟩ | ⟨-, hout, -⟩ := executed_or_unchanged h
  · refine (exec_out hexec).imp id ?_
    rintro ⟨a, ra, rfl, ha, hout⟩
    exact ⟨a, ra, hd, ha, hout⟩
  · exact .inl hout

/-- Settles O49: an executed PUSH or CALL alone writes memory, at the cell below the pointer. -/
theorem memoryChangesOnlyByPushAndCall : Obligations.MemoryChangesOnlyByPushAndCall := by
  unfold Obligations.MemoryChangesOnlyByPushAndCall
  intro c s t d h hne
  obtain ⟨i, hd, hexec⟩ | ⟨-, -, hmem⟩ := executed_or_unchanged h
  · obtain hmem | ⟨⟨a, hi⟩, hsp, v, hmem⟩ := exec_mem hexec
    · exact absurd (congrArg (readByte · d) hmem) hne
    · have hcell : d = (s.sp - 1).toNat := by
        by_contra hother
        exact hne (by rw [hmem, readByte_writeByte_other _ _ hother])
      refine ⟨hsp, hcell, a, ?_⟩
      rcases hi with rfl | rfl
      · exact .inl hd
      · exact .inr hd
  · exact absurd (congrArg (readByte · d) hmem) hne

/-- Settles O50: of what a running step can do only a completed HLT writes Halted, and an HLT always completes. -/
theorem haltedOnlyByHlt : Obligations.HaltedOnlyByHlt := by
  unfold Obligations.HaltedOnlyByHlt
  intro c s t hr h
  constructor
  · intro ht
    cases stepOutcome_of_next h with
    | stopped hstop => exact absurd hr hstop
    | raised => cases ht
    | completed _ hpc hd h =>
      rcases handlerOf_ok_run h with ⟨-, hrun⟩ | ⟨rfl, -⟩
      · simp [hrun, hr] at ht
      · exact ⟨hpc, hd⟩
    | skipped => simp [hr] at ht
  · rintro ⟨hpc, hd⟩
    rw [stepWith_of_decoded hr hpc hd] at h
    cases h
    rfl

end Sys2Proof.Machine
end

section
/-! What an instruction does not read: an overlay of the state by other values of some fields goes through a handler
unchanged (10_state.md sections 4, 5 and 7, 20_memory.md R44). -/

namespace Sys2Proof.Machine

/-- A change of the state that keeps the registers and the pc, and that register and pc writes go through. -/
structure Overlay (g : State → State) : Prop where
  x : ∀ s, (g s).x = s.x
  pc : ∀ s, (g s).pc = s.pc
  writeReg : ∀ s r v, g (s.writeReg r v) = (g s).writeReg r v
  setPc : ∀ s p, g (s.setPc p) = (g s).setPc p

/-- What an overlay must keep of the other field an instruction reads, or let through of the one it writes. -/
def Overlay.Suits (g : State → State) (s : State) : Instr → Prop
  | .hlt => g s.halt = (g s).halt
  | .prn _ => ∀ v, g (s.emit v) = (g s).emit v
  | .cmp _ _ => ∀ v, g (s.setFl v) = (g s).setFl v
  | .push _ | .call _ => ∀ u a v, g (u.setMem a v) = (g u).setMem a v
  | .pop _ | .ret => readByte (g s).mem s.sp.toNat = readByte s.mem s.sp.toNat
  | .jeq _ | .jne _ => flagE (g s).fl = flagE s.fl
  | _ => True

section
variable {g : State → State} (hg : Overlay g)
include hg

theorem Overlay.readReg (s : State) (r : Fin 8) : (g s).readReg r = s.readReg r :=
  State.readReg_congr (hg.x s) r

theorem Overlay.sp (s : State) : (g s).sp = s.sp := hg.readReg s spIndex

theorem Overlay.jumpTo (s : State) (r : Fin 8) : g (s.jumpTo r) = (g s).jumpTo r := by
  rw [State.jumpTo, State.jumpTo, hg.setPc, hg.readReg]

theorem Overlay.advance (n : Nat) (b : Bool) (s : State) :
    g (Machine.advance n b s) = Machine.advance n b (g s) := by
  cases b with
  | true => rfl
  | false => rw [advance_pc, advance_pc, hg.setPc, hg.pc]

/-- A handler that completes does so under a suitable overlay, with the same result under the overlay. -/
theorem Overlay.handlerOf_ok {i : Instr} {s t : State} (hs : Overlay.Suits g s i) (h : handlerOf i s = .ok t) :
    handlerOf i (g s) = .ok (g t) := by
  cases i with
  | ldi =>
    obtain ⟨ra, ha, rfl⟩ := handlerOf_ldi_eq_ok.1 h
    exact handlerOf_ldi_eq_ok.2 ⟨ra, ha, (hg.writeReg ..).symm⟩
  | not =>
    obtain ⟨ra, ha, rfl⟩ := handlerOf_not_eq_ok.1 h
    exact handlerOf_not_eq_ok.2 ⟨ra, ha, by rw [hg.readReg, hg.writeReg]⟩
  | add | mul | and | or | xor | shl | shr =>
    obtain ⟨ra, rb, ha, hb, rfl⟩ := aluTwo_eq_ok.1 h
    exact aluTwo_eq_ok.2 ⟨ra, rb, ha, hb, by rw [hg.readReg, hg.readReg, hg.writeReg]⟩
  | hlt =>
    cases h
    exact congrArg Except.ok hs.symm
  | prn =>
    obtain ⟨ra, ha, rfl⟩ := handlerOf_prn_eq_ok.1 h
    exact handlerOf_prn_eq_ok.2 ⟨ra, ha, by rw [hg.readReg, hs]⟩
  | cmp =>
    obtain ⟨ra, rb, ha, hb, rfl⟩ := handlerOf_cmp_eq_ok.1 h
    exact handlerOf_cmp_eq_ok.2 ⟨ra, rb, ha, hb, by rw [hg.readReg, hg.readReg, hs]⟩
  | jmp =>
    obtain ⟨ra, ha, rfl⟩ := handlerOf_jmp_eq_ok.1 h
    exact handlerOf_jmp_eq_ok.2 ⟨ra, ha, (hg.jumpTo ..).symm⟩
  | jeq =>
    obtain ⟨ra, ha, rfl⟩ := handlerOf_jeq_eq_ok.1 h
    exact handlerOf_jeq_eq_ok.2 ⟨ra, ha, by rw [hs, hg.pc, apply_ite g, hg.jumpTo, hg.setPc]⟩
  | jne =>
    obtain ⟨ra, ha, rfl⟩ := handlerOf_jne_eq_ok.1 h
    exact handlerOf_jne_eq_ok.2 ⟨ra, ha, by rw [hs, hg.pc, apply_ite g, hg.jumpTo, hg.setPc]⟩
  | push =>
    obtain ⟨ra, ha, hsp, rfl⟩ := handlerOf_push_eq_ok.1 h
    exact handlerOf_push_eq_ok.2 ⟨ra, ha, by rwa [hg.sp], by rw [hg.sp, hs, ← hg.writeReg, hg.readReg]⟩
  | call =>
    obtain ⟨ra, ha, hsp, rfl⟩ := handlerOf_call_eq_ok.1 h
    exact handlerOf_call_eq_ok.2 ⟨ra, ha, by rwa [hg.sp],
      by rw [hg.sp, hg.jumpTo, hs, hg.writeReg, returnAddress, returnAddress, hg.pc]⟩
  | pop =>
    simp only [handlerOf, withReg_eq_ok, popInto_eq_ok] at h ⊢
    obtain ⟨ra, ha, hsp, rfl⟩ := h
    exact ⟨ra, ha, by rwa [hg.sp, hs, ← hg.writeReg, hg.sp], by rw [hg.sp, hs, ← hg.writeReg, hg.sp, hg.writeReg]⟩
  | ret =>
    obtain ⟨hsp, rfl⟩ := returnFrom_eq_ok.1 h
    exact returnFrom_eq_ok.2 ⟨by rwa [hg.sp], by rw [hg.sp, hs, hg.setPc, hg.writeReg]⟩

/-- An instruction that completes does so under a suitable overlay. -/
theorem Overlay.exec_of_completed {i : Instr} {s t : State}
    (hs : Overlay.Suits g (Machine.advance i.opcode.operandCount i.opcode.setsPc s) i)
    (h : handlerOf i (Machine.advance i.opcode.operandCount i.opcode.setsPc s) = .ok t) :
    exec i (g s) = .next (g t) := by
  refine exec_of_ok ?_
  rw [← hg.advance]
  exact hg.handlerOf_ok hs h

end

/-- What a handler raises depends on the registers alone, and for POP, where R7 may be its destination, on the byte at
the pointer. -/
theorem handlerOf_error_congr {i : Instr} {s s' : State} {e : Raised} (hx : s'.x = s.x)
    (hcell : (∃ a, i = .pop a) → readByte s'.mem s.sp.toNat = readByte s.mem s.sp.toNat)
    (h : handlerOf i s = .error e) : handlerOf i s' = .error e := by
  have hsp : s'.sp = s.sp := State.readReg_congr hx spIndex
  cases i with
  | ldi | prn | not | jmp | jeq | jne =>
    simp only [handlerOf] at h ⊢
    rcases withReg_eq_error.1 h with habove | ⟨ra, -, hact⟩
    · exact withReg_eq_error.2 (.inl habove)
    · cases hact
  | hlt => cases h
  | add | mul | and | or | xor | shl | shr => exact aluTwo_eq_error.2 (aluTwo_eq_error.1 h)
  | cmp =>
    simp only [handlerOf] at h ⊢
    rcases withRegs_eq_error.1 h with ha | hb | ⟨ra, rb, -, -, hact⟩
    · exact withRegs_eq_error.2 (.inl ha)
    · exact withRegs_eq_error.2 (.inr (.inl hb))
    · cases hact
  | push => simpa only [handlerOf, withReg_eq_error, pushWith_eq_error, hsp] using h
  | call => simpa only [handlerOf, withReg_eq_error, callTo_eq_error, pushWith_eq_error, hsp] using h
  | pop a =>
    simpa only [handlerOf, withReg_eq_error, popInto_eq_error, sp_writeReg, hsp, hcell ⟨a, rfl⟩] using h
  | ret => exact returnFrom_eq_error.2 (hsp ▸ returnFrom_eq_error.1 h)

/-- An instruction that faults does so, with the same cause, wherever the registers, and POP's byte, are the same. -/
theorem exec_of_raised {i : Instr} {s s' : State} {e : Raised} (hx : s'.x = s.x)
    (hcell : (∃ a, i = .pop a) → readByte s'.mem s.sp.toNat = readByte s.mem s.sp.toNat)
    (h : handlerOf i (advance i.opcode.operandCount i.opcode.setsPc s) = .error e) :
    exec i s' = .next (raise s' e) :=
  exec_of_error (handlerOf_error_congr (by simpa using hx) (by simpa using hcell) h)

/-! ### Another memory -/

/-- `s` with another memory. -/
def State.withMem (s : State) (m : Memory) : State := { s with mem := m }

theorem overlay_withMem (m : Memory) : Overlay (·.withMem m) :=
  ⟨fun _ => rfl, fun _ => rfl, fun _ _ _ => rfl, fun _ _ => rfl⟩

/-- Another memory suits an instruction that does not move the pointer, and POP and RET where the byte at the pointer is
the same. -/
theorem suits_withMem {m : Memory} {s : State} {i : Instr} (hpush : ∀ a, i ≠ .push a) (hcall : ∀ a, i ≠ .call a)
    (hcell : movesSp i = true → readByte m s.sp.toNat = readByte s.mem s.sp.toNat) :
    Overlay.Suits (·.withMem m) s i := by
  cases i with
  | push => exact absurd rfl (hpush _)
  | call => exact absurd rfl (hcall _)
  | pop | ret => exact hcell rfl
  | hlt | jeq | jne => rfl
  | prn | cmp => exact fun _ => rfl
  | _ => trivial

/-- An instruction that stores nothing leaves memory alone and does the same in another memory, if the byte it reads is
the same there. -/
theorem exec_withMem {m : Memory} {s t : State} {i : Instr} (hpush : ∀ a, i ≠ .push a) (hcall : ∀ a, i ≠ .call a)
    (hcell : movesSp i = true → readByte m s.sp.toNat = readByte s.mem s.sp.toNat) (h : exec i s = .next t) :
    t.mem = s.mem ∧ exec i (s.withMem m) = .next (t.withMem m) := by
  constructor
  · rcases exec_mem h with hmem | ⟨⟨a, hi | hi⟩, -⟩
    · exact hmem
    · exact absurd hi (hpush a)
    · exact absurd hi (hcall a)
  · rcases exec_eq_next.1 h with hok | ⟨e, herr, rfl⟩
    · exact (overlay_withMem m).exec_of_completed (suits_withMem hpush hcall (by simpa using hcell)) hok
    · refine exec_of_raised (s := s) (s' := s.withMem m) rfl ?_ herr
      rintro ⟨a, rfl⟩
      exact hcell rfl

/-- A PUSH or CALL that cannot store faults with one cause in every state that has its registers. -/
theorem exists_exec_store_fault {s : State} {a : Byte} (h : 7 < a.toNat ∨ s.x[(7 : Fin 8)] = 0x00#8) {i : Instr}
    (hi : i ∈ [Instr.push a, .call a]) : ∃ e, ∀ m : Memory, exec i (s.withMem m) = .next (raise (s.withMem m) e) := by
  rcases regIdx_cases a with ⟨ra, ha⟩ | habove
  · have hsp : s.x[(7 : Fin 8)] = 0x00#8 := h.resolve_left (by omega)
    refine ⟨⟨.outOfBoundsMem, -1⟩, fun m => exec_of_error ?_⟩
    fin_cases hi
    · exact handlerOf_push_of_sp_zero ha hsp
    · exact handlerOf_call_of_sp_zero ha hsp
  · have hops : i.registerOperands = [a] := by
      fin_cases hi <;> rfl
    exact ⟨_, fun m => exec_of_first_above hops habove _⟩

/-- Writing the byte a cell holds gives the same canonical memory. -/
theorem writeByte_readByte {m : Memory} {a : Nat} (hm : m.wf = true) (ha : a ≤ 255) :
    writeByte m a (readByte m a) = m := by
  refine Memory.ext_of_wf (wf_writeByte _ hm ha) hm fun d => ?_
  rw [readByte_writeByte]
  split
  · next hd => rw [hd]
  · rfl

/-- A fetch sees the three bytes at the pc of whatever memory. -/
theorem fetch_withMem {s : State} {m : Memory} (h0 : readByte m s.pc = readByte s.mem s.pc)
    (h1 : readByte m (s.pc + 1) = readByte s.mem (s.pc + 1)) (h2 : readByte m (s.pc + 2) = readByte s.mem (s.pc + 2)) :
    fetch (s.withMem m) = fetch s := by
  cases hf : fetch s with
  | ok w =>
    obtain ⟨hpc, rfl⟩ := fetch_eq_ok.1 hf
    exact fetch_eq_ok.2 ⟨hpc, by simp [State.withMem, h0, h1, h2]⟩
  | error e => exact fetch_eq_error.2 ((fetch_eq_error (s := s)).1 hf)

/-- A POP that does not fault leaves the byte at the pointer in its register, and one more where that is the pointer. -/
theorem readReg_of_pop {s t : State} {a : Byte} {ra : Fin 8} (ha : a.toNat = ra.val) (h : exec (.pop a) s = .next t)
    (ht : t.run ≠ .faulted) :
    t.x[ra] = if ra = 7 then readByte s.mem s.x[(7 : Fin 8)].toNat + 1 else readByte s.mem s.x[(7 : Fin 8)].toNat := by
  rcases exec_eq_next.1 h with hok | ⟨e, -, rfl⟩
  · simp only [handlerOf, withReg_of_names ha] at hok
    obtain ⟨-, rfl⟩ := popInto_eq_ok.1 hok
    rw [← State.readReg_eq, State.readReg_writeReg, sp_writeReg, State.readReg_writeReg_same, spIndex]
    by_cases h7 : ra = 7
    · rw [if_pos h7, if_pos h7, if_pos h7]
      rfl
    · rw [if_neg h7, if_neg h7]
      rfl
  · exact absurd rfl ht

/-- A RET that does not fault goes to the byte at the pointer. -/
theorem pc_of_ret {s t : State} (h : exec .ret s = .next t) (ht : t.run ≠ .faulted) :
    t.pc = (readByte s.mem s.x[(7 : Fin 8)].toNat).toNat := by
  rcases exec_eq_next.1 h with hok | ⟨e, -, rfl⟩
  · obtain ⟨-, rfl⟩ := returnFrom_eq_ok.1 hok
    rfl
  · exact absurd rfl ht

/-- Settles O8: another memory is an overlay that suits every instruction but PUSH and CALL, if POP and RET find the same
byte; and the two write one byte that comes from the registers or the pc, or fault for a reason in the registers. -/
theorem dataAccessesPerInstruction : Obligations.DataAccessesPerInstruction := by
  unfold Obligations.DataAccessesPerInstruction
  refine ⟨fun s hpc => fetch_windowAt hpc, fun s m h0 h1 h2 => fetch_withMem h0 h1 h2, fun i s t m hi h => ?others,
    fun i s t m hi h hcell => ?loads, fun s t a ra ha h ht => readReg_of_pop ha h ht, fun s t h ht => pc_of_ret h ht,
    fun s a ra ha hsp i hi => ?stores, fun s a ha i hi => ?storeFaults, fun m a hm ha => writeByte_readByte hm ha⟩
  case others =>
    obtain ⟨hsp, hpush, hcall⟩ : movesSp i = false ∧ (∀ a, i ≠ .push a) ∧ ∀ a, i ≠ .call a := by
      cases i with
      | push | call | pop | ret => simp [Instr.opcode] at hi
      | _ => exact ⟨rfl, nofun, nofun⟩
    exact exec_withMem hpush hcall (by simp [hsp]) h
  case loads =>
    obtain ⟨hpush, hcall⟩ : (∀ a, i ≠ .push a) ∧ ∀ a, i ≠ .call a := by
      constructor <;> rintro a rfl <;> simp [Instr.opcode] at hi
    exact exec_withMem hpush hcall (fun _ => hcell) h
  case stores =>
    fin_cases hi
    · exact ⟨_, _, exec_push_of_names ha hsp, rfl, rfl, fun m => exec_push_of_names (s := s.withMem m) ha hsp⟩
    · exact ⟨_, _, exec_call_of_names ha hsp, rfl, rfl, fun m => exec_call_of_names (s := s.withMem m) ha hsp⟩
  case storeFaults =>
    obtain ⟨e, he⟩ := exists_exec_store_fault ha hi
    exact ⟨raise s e, he s.mem, rfl, rfl, he⟩

/-! ### Other flags -/

theorem overlay_setFl (f : Byte) : Overlay (·.setFl f) :=
  ⟨fun _ => rfl, fun _ => rfl, fun _ _ _ => rfl, fun _ _ => rfl⟩

/-- Flags with the same E suit every instruction but CMP, which replaces them. -/
theorem suits_setFl {f : Byte} {s : State} {i : Instr} (hcmp : ∀ a b, i ≠ .cmp a b) (hE : flagE f = flagE s.fl) :
    Overlay.Suits (·.setFl f) s i := by
  cases i with
  | cmp => exact absurd rfl (hcmp _ _)
  | jeq | jne => exact hE
  | hlt | pop | ret => rfl
  | prn => exact fun _ => rfl
  | push | call => exact fun _ _ _ => rfl
  | _ => trivial

/-- Settles O51: flags with the same E are an overlay that suits every instruction but CMP, which replaces them. -/
theorem greaterAndLessAreNeverRead : Obligations.GreaterAndLessAreNeverRead := by
  unfold Obligations.GreaterAndLessAreNeverRead
  intro i s t f hE h
  rcases exec_eq_next.1 h with hok | ⟨e, herr, rfl⟩
  · by_cases hcmp : ∃ a b, i = .cmp a b
    · obtain ⟨a, b, rfl⟩ := hcmp
      obtain ⟨ra, rb, ha, hb, rfl⟩ := handlerOf_cmp_eq_ok.1 hok
      exact ⟨_, .inl rfl, exec_of_ok (handlerOf_cmp_eq_ok.2 ⟨ra, rb, ha, hb, rfl⟩)⟩
    · have hsuits := suits_setFl (i := i) (fun a b hi => hcmp ⟨a, b, hi⟩)
        (show flagE f = flagE (advance i.opcode.operandCount i.opcode.setsPc s).fl by rwa [advance_fl])
      exact ⟨f, .inr rfl, (overlay_setFl f).exec_of_completed hsuits hok⟩
  · exact ⟨f, .inr rfl, exec_of_raised (s := s) rfl (fun _ => rfl) herr⟩

/-! ### Another output log, run state and record -/

/-- `s` with other values of what the host observes (70_reset_and_hazards.md R173). -/
def State.withObserved (s : State) (o : List Byte) (r : RunState) (e : FaultRecord) : State :=
  { s with out := o, run := r, fault := e }

theorem overlay_withObserved (o : List Byte) (r : RunState) (e : FaultRecord) : Overlay (·.withObserved o r e) :=
  ⟨fun _ => rfl, fun _ => rfl, fun _ _ _ => rfl, fun _ _ => rfl⟩

/-- Other observed values suit every instruction that writes none of them. -/
theorem suits_withObserved {o : List Byte} {r : RunState} {e : FaultRecord} {s : State} {i : Instr} (hhlt : i ≠ .hlt)
    (hprn : ∀ a, i ≠ .prn a) : Overlay.Suits (·.withObserved o r e) s i := by
  cases i with
  | hlt => exact absurd rfl hhlt
  | prn => exact absurd rfl (hprn _)
  | cmp => exact fun _ => rfl
  | jeq | jne | pop | ret => rfl
  | push | call => exact fun _ _ _ => rfl
  | _ => trivial

/-- Settles O52: other observed values are an overlay that suits every instruction but PRN and HLT, and those two write
what they write in any state. -/
theorem outputRunAndFaultAreNeverRead : Obligations.OutputRunAndFaultAreNeverRead := by
  unfold Obligations.OutputRunAndFaultAreNeverRead
  intro i s t o r e h
  rcases exec_eq_next.1 h with hok | ⟨e', herr, rfl⟩
  · by_cases hprn : ∃ a, i = .prn a
    · obtain ⟨a, rfl⟩ := hprn
      obtain ⟨ra, ha, rfl⟩ := handlerOf_prn_eq_ok.1 hok
      exact ⟨_, _, exec_of_ok (handlerOf_prn_eq_ok.2 ⟨ra, ha, rfl⟩), rfl, rfl, rfl, rfl, rfl, rfl,
        .inl ⟨nofun, rfl, rfl, rfl, rfl⟩⟩
    by_cases hhlt : i = .hlt
    · subst hhlt
      cases hok
      exact ⟨_, [], hltResult _, rfl, rfl, rfl, rfl, (List.append_nil _).symm, (List.append_nil _).symm,
        .inr (.inl ⟨rfl, rfl, rfl, rfl, rfl⟩)⟩
    · have hout : t.out = s.out := (exec_out h).resolve_right fun ⟨a, _, hi, _⟩ => hprn ⟨a, hi⟩
      have hsuits := suits_withObserved (o := o) (r := r) (e := e)
        (s := advance i.opcode.operandCount i.opcode.setsPc s) hhlt fun a hi => hprn ⟨a, hi⟩
      refine ⟨_, [], (overlay_withObserved o r e).exec_of_completed hsuits hok, rfl, rfl, rfl, rfl, by simp [hout],
        (List.append_nil o).symm, .inl ⟨hhlt, ?_, rfl, ?_, rfl⟩⟩
      · exact ((handlerOf_ok_run hok).resolve_right fun hi => hhlt hi.1).2.trans (advance_run ..)
      · exact (handlerOf_ok_unchanged hok).1.trans (advance_fault ..)
  · exact ⟨_, [], exec_of_raised (s := s) rfl (fun _ => rfl) herr, rfl, rfl, rfl, rfl, (List.append_nil _).symm,
      (List.append_nil _).symm, .inr (.inr ⟨rfl, rfl, rfl⟩)⟩

end Sys2Proof.Machine
end

section
/-! Round trips over the stack: pushes and pops (property S4 of 95_test_vectors.md), CALL and RET (S9). -/

namespace Sys2Proof.Machine

/-- Memory holds the bytes of a list from an address on. -/
def HoldsFrom (m : Memory) : Nat → List Byte → Prop
  | _, [] => True
  | p, v :: vs => readByte m p = v ∧ HoldsFrom m (p + 1) vs

theorem holdsFrom_append_singleton {m : Memory} {p : Nat} {vs : List Byte} {v : Byte} :
    HoldsFrom m p (vs ++ [v]) ↔ HoldsFrom m p vs ∧ readByte m (p + vs.length) = v := by
  induction vs generalizing p with
  | nil => simp [HoldsFrom]
  | cons w ws ih =>
    rw [List.cons_append, HoldsFrom, HoldsFrom, ih, and_assoc, List.length_cons,
      show p + (ws.length + 1) = p + 1 + ws.length by omega]

theorem execAll_cons_of_next {i : Instr} {rest : List Instr} {s t : State} (h : exec i s = .next t) :
    execAll (i :: rest) s = execAll rest t := by
  simp only [execAll, h]

theorem toNat_ofNat_reg (r : Fin 8) : (BitVec.ofNat 8 r.val).toNat = r.val := by
  rw [BitVec.toNat_ofNat, Nat.mod_eq_of_lt (by omega)]

/-- A pointer that is not 0 moves down by one. -/
theorem toNat_sub_one_add_one {p : Byte} (h : p ≠ 0x00#8) : (p - 1).toNat + 1 = p.toNat := by
  bv_omega

/-- A pointer below 255 moves up by one. -/
theorem toNat_add_one {p : Byte} (h : p.toNat < 255) : (p + 1).toNat = p.toNat + 1 := by
  bv_omega

/-- One PUSH of another register: the pointer, the register's byte at it, and what lies above. -/
theorem exec_push_round {s : State} {r : Fin 8} (h7 : r ≠ 7) (hsp : s.x[(7 : Fin 8)] ≠ 0x00#8) :
    ∃ t, exec (.push (BitVec.ofNat 8 r.val)) s = .next t ∧
      t.x[(7 : Fin 8)].toNat + 1 = s.x[(7 : Fin 8)].toNat ∧ (∀ q : Fin 8, q ≠ 7 → t.x[q] = s.x[q]) ∧
      readByte t.mem t.x[(7 : Fin 8)].toNat = s.x[r] ∧
      ∀ d, s.x[(7 : Fin 8)].toNat ≤ d → readByte t.mem d = readByte s.mem d := by
  have hexec := exec_push_of_names (toNat_ofNat_reg r) hsp
  rw [if_neg h7] at hexec
  have hdown := toNat_sub_one_add_one hsp
  have hptr := State.readReg_writeReg_same s 7 (s.x[(7 : Fin 8)] - 1)
  refine ⟨_, hexec, (congrArg (·.toNat + 1) hptr).trans hdown, fun q hq => State.readReg_writeReg_other s _ hq, ?_,
    fun d hd => readByte_writeByte_other _ _ (by omega)⟩
  exact (congrArg (fun p => readByte (writeByte s.mem (s.x[(7 : Fin 8)] - 1).toNat s.x[r]) p.toNat) hptr).trans
    (readByte_writeByte_same ..)

/-- One POP of another register: the pointer, the register, and what stays. -/
theorem exec_pop_round {s : State} {r : Fin 8} (h7 : r ≠ 7) (hsp : s.x[(7 : Fin 8)].toNat < 255) :
    ∃ t, exec (.pop (BitVec.ofNat 8 r.val)) s = .next t ∧
      t.x[(7 : Fin 8)].toNat = s.x[(7 : Fin 8)].toNat + 1 ∧
      t.x[r] = readByte s.mem s.x[(7 : Fin 8)].toNat ∧
      (∀ q : Fin 8, q ≠ 7 → q ≠ r → t.x[q] = s.x[q]) ∧ t.mem = s.mem := by
  refine ⟨_, exec_pop_of_ne (toNat_ofNat_reg r) h7 hsp, ?_, ?_, fun q hq hqr => ?_, rfl⟩
  · exact (congrArg BitVec.toNat (State.readReg_writeReg_same (s.writeReg r _) 7 _)).trans (toNat_add_one hsp)
  · exact (State.readReg_writeReg_other (s.writeReg r _) _ h7).trans (State.readReg_writeReg_same s r _)
  · exact (State.readReg_writeReg_other (s.writeReg r _) _ hq).trans (State.readReg_writeReg_other s _ hqr)

/-- Pushing a list of registers leaves their bytes below the old pointer, the last pushed lowest. -/
theorem execAll_pushes {regs : List (Fin 8)} {s : State} (h7 : (7 : Fin 8) ∉ regs)
    (hlen : regs.length ≤ s.x[(7 : Fin 8)].toNat) :
    ∃ t, execAll (regs.map fun r => .push (BitVec.ofNat 8 r.val)) s = .next t ∧
      t.x[(7 : Fin 8)].toNat + regs.length = s.x[(7 : Fin 8)].toNat ∧ (∀ q : Fin 8, q ≠ 7 → t.x[q] = s.x[q]) ∧
      (∀ d, s.x[(7 : Fin 8)].toNat ≤ d → readByte t.mem d = readByte s.mem d) ∧
      HoldsFrom t.mem t.x[(7 : Fin 8)].toNat (regs.reverse.map fun r => s.x[r]) := by
  induction regs generalizing s with
  | nil => exact ⟨s, rfl, rfl, fun _ _ => rfl, fun _ _ => rfl, trivial⟩
  | cons r rest ih =>
    rw [List.mem_cons, not_or] at h7
    obtain ⟨hr7, hrest⟩ := h7
    rw [List.length_cons] at hlen
    have hsp : s.x[(7 : Fin 8)] ≠ 0x00#8 := by
      intro hz
      rw [hz, BitVec.toNat_zero] at hlen
      omega
    obtain ⟨s1, hexec, hdown, hregs, hcell, habove⟩ := exec_push_round (Ne.symm hr7) hsp
    obtain ⟨t, hall, hdown', hregs', habove', hholds⟩ := ih (s := s1) hrest (by omega)
    refine ⟨t, ?_, by rw [List.length_cons]; omega, fun q hq => (hregs' q hq).trans (hregs q hq),
      fun d hd => (habove' d (by omega)).trans (habove d hd), ?_⟩
    · rw [List.map_cons, execAll_cons_of_next hexec, hall]
    · rw [List.reverse_cons, List.map_append, List.map_singleton, holdsFrom_append_singleton, List.length_map,
        List.length_reverse, hdown', habove' _ le_rfl]
      refine ⟨?_, hcell⟩
      have hsame : rest.reverse.map (fun q => s.x[q]) = rest.reverse.map fun q => s1.x[q] :=
        List.map_congr_left fun q hq => (hregs q fun h => hrest (h ▸ List.mem_reverse.1 hq)).symm
      rwa [hsame]

/-- Popping a list of registers gives each the byte that lies in its place, if a register that is popped twice finds the
same byte both times. -/
theorem execAll_pops {regs : List (Fin 8)} {s : State} {val : Fin 8 → Byte} (h7 : (7 : Fin 8) ∉ regs)
    (hlen : s.x[(7 : Fin 8)].toNat + regs.length ≤ 255)
    (hholds : HoldsFrom s.mem s.x[(7 : Fin 8)].toNat (regs.map val)) :
    ∃ u, execAll (regs.map fun r => .pop (BitVec.ofNat 8 r.val)) s = .next u ∧
      u.x[(7 : Fin 8)].toNat = s.x[(7 : Fin 8)].toNat + regs.length ∧ (∀ r ∈ regs, u.x[r] = val r) ∧
      ∀ r : Fin 8, r ≠ 7 → r ∉ regs → u.x[r] = s.x[r] := by
  induction regs generalizing s with
  | nil => exact ⟨s, rfl, rfl, nofun, fun _ _ _ => rfl⟩
  | cons r rest ih =>
    rw [List.mem_cons, not_or] at h7
    obtain ⟨hr7, hrest⟩ := h7
    obtain ⟨hcell, hholds⟩ := hholds
    rw [List.length_cons] at hlen
    obtain ⟨s1, hexec, hup, hr, hregs, hmem⟩ := exec_pop_round (s := s) (Ne.symm hr7) (by omega)
    obtain ⟨u, hall, hup', hin, hout⟩ := ih (s := s1) hrest (by omega) (by rwa [hmem, hup])
    refine ⟨u, ?_, by rw [List.length_cons]; omega, fun q hq => ?_, fun q hq7 hq => ?_⟩
    · rw [List.map_cons, execAll_cons_of_next hexec, hall]
    · by_cases hqrest : q ∈ rest
      · exact hin q hqrest
      · obtain rfl : q = r := (List.mem_cons.1 hq).resolve_right hqrest
        rw [hout q (Ne.symm hr7) hqrest, hr, hcell]
    · rw [List.mem_cons, not_or] at hq
      rw [hout q hq7 hq.2, hregs q hq7 hq.1]

/-- Settles O53: the pushes lay the registers' bytes down in the order in which the pops in reverse take them up. -/
theorem pushesThenPopsRestoreRegisters : Obligations.PushesThenPopsRestoreRegisters := by
  unfold Obligations.PushesThenPopsRestoreRegisters
  intro regs s h7 hlen
  obtain ⟨t, hpushes, hdown, hregs, -, hholds⟩ := execAll_pushes h7 hlen
  refine ⟨t, hpushes, hdown, hregs, fun t' hsp hmem => ?_⟩
  have hbyte := s.x[(7 : Fin 8)].isLt
  obtain ⟨u, hpops, hup, hin, hout⟩ := execAll_pops (regs := regs.reverse) (s := t') (val := fun r => s.x[r])
    (by simpa using h7) (by rw [hsp, List.length_reverse]; omega) (by rwa [hmem, hsp])
  refine ⟨u, hpops, BitVec.eq_of_toNat_eq ?_, fun r hr => hin r (List.mem_reverse.2 hr),
    fun r hr7 hr => hout r hr7 (by simpa using hr)⟩
  rw [hup, hsp, List.length_reverse, hdown]

/-- CALL moves the pointer down by one and leaves the return address in the cell there. -/
theorem exec_call_round {s : State} {a : Byte} {ra : Fin 8} (ha : a.toNat = ra.val)
    (hsp : s.x[(7 : Fin 8)] ≠ 0x00#8) :
    ∃ t, exec (.call a) s = .next t ∧ t.x[(7 : Fin 8)] = s.x[(7 : Fin 8)] - 1 ∧
      readByte t.mem (s.x[(7 : Fin 8)] - 1).toNat = returnAddress s :=
  ⟨_, exec_call_of_names ha hsp, State.readReg_writeReg_same s 7 _, readByte_writeByte_same ..⟩

/-- Settles O54: CALL leaves the return address in the cell at the pointer, and RET takes it from there. -/
theorem callThenReturnComesBack : Obligations.CallThenReturnComesBack := by
  unfold Obligations.CallThenReturnComesBack
  intro s a ra ha hsp hpc
  obtain ⟨t, hcall, hptr, hback⟩ := exec_call_round ha hsp
  refine ⟨t, hcall, fun t' hptr' hcell => ?_⟩
  rw [hptr] at hptr' hcell
  rw [hback, ← hptr'] at hcell
  have hdown := toNat_sub_one_add_one hsp
  have hbyte := s.x[(7 : Fin 8)].isLt
  refine ⟨_, retResult t' (by rw [hptr']; omega), ?_, ?_, fun r hr => State.readReg_writeReg_other t' _ hr⟩
  · rw [hcell, toNat_returnAddress hpc]
  · exact (State.readReg_writeReg_same t' 7 _).trans (by rw [hptr', BitVec.sub_add_cancel])

end Sys2Proof.Machine
end
